-- ==== Sys2Proof/Word.lean ====
section
/-! DEFINITION. The word types of the CORE. All values are unsigned (00_scope section 5.1; R131). -/
namespace Sys2Proof

/-- An 8-bit quantity: a general register, a timer, a memory cell, KK (R10, R21, R23, R63). -/
abbrev Byte := BitVec 8

/-- A 16-bit quantity: `I`, `pc`, a stack slot, an instruction word (R14, R15, R18, R62). -/
abbrev Word := BitVec 16

/-- The 12-bit address field NNN (R63). -/
abbrev Addr := BitVec 12

/-- A 4-bit field: the leading nibble, N, a secondary selector (R63, R67). -/
abbrev Nibble := BitVec 4

/-- The number of a general register, which is what the fields X and Y select.
All 16 values of a 4-bit field are legal register numbers (R10, R65, R72). -/
abbrev Reg := Fin 16

/-- The number of a key, 0 to 15 (R27). -/
abbrev Key := Fin 16

/-- The index of a framebuffer cell, 0 to 2047 (R25). -/
abbrev FbCell := Fin 2048

end Sys2Proof
end

