-- ==== Sys2Proof/Config.lean ====
section
/-! DEFINITION. The fixed sizes of the CORE (00_scope section 4), and the one free value: what RND draws
(R133). -/
namespace Sys2Proof.Config

/-- MEM_SIZE: addresses 0x000 to 0xFFF (R23, R40). -/
abbrev memSize : Nat := 4096

/-- PROGRAM_BASE: the entry point and the load address (R15, R243, R245). -/
abbrev programBase : Nat := 0x200

/-- PROGRAM_MAX: the longest program image (R202, R244). -/
abbrev programMax : Nat := 3584

/-- `draw8()`: the byte the `n`-th execution of RND obtains, "an 8-bit value supplied from outside the
model for this one execution" (00_scope section 5.3, R133, D17). FREE VALUE, no body: nothing in Lean
can evaluate it, so a statement about it holds for every draw. DESIGN CHOICE (its form); safe; log
entry 1. -/
opaque freeByte : Nat → Byte

end Sys2Proof.Config
end

