-- ==== Sys2Proof/Syntax.lean ====
section
/-! DEFINITION. The 34 instructions, one constructor per row of spec/opcode_table.json (R1, R68). -/
namespace Sys2Proof

/-- The instruction set (R68), in the order of the table. `x` and `y` are the fields X and Y, `kk`, `n`,
`nnn` the immediates KK, N, NNN (R63). Bits a row ignores (R70) are no field of its constructor: "words
that differ only in them are the same instruction". -/
inductive Instr where
  /-- CLS, 00E0 (R160). -/
  | cls
  /-- RET, 00EE (R100). -/
  | ret
  /-- JP NNN, 1NNN (R101). -/
  | jp (nnn : Addr)
  /-- CALL NNN, 2NNN (R102). -/
  | call (nnn : Addr)
  /-- SE Vx,KK, 3XKK (R103). -/
  | seVxKK (x : Reg) (kk : Byte)
  /-- SNE Vx,KK, 4XKK (R104). -/
  | sneVxKK (x : Reg) (kk : Byte)
  /-- SE Vx,Vy, 5XY- (R105). -/
  | seVxVy (x y : Reg)
  /-- LD Vx,KK, 6XKK (R120). -/
  | ldVxKK (x : Reg) (kk : Byte)
  /-- ADD Vx,KK, 7XKK (R121). -/
  | addVxKK (x : Reg) (kk : Byte)
  /-- LD Vx,Vy, 8XY0 (R122). -/
  | ldVxVy (x y : Reg)
  /-- OR Vx,Vy, 8XY1 (R123). -/
  | orVxVy (x y : Reg)
  /-- AND Vx,Vy, 8XY2 (R124). -/
  | andVxVy (x y : Reg)
  /-- XOR Vx,Vy, 8XY3 (R125). -/
  | xorVxVy (x y : Reg)
  /-- ADD Vx,Vy, 8XY4 (R126). -/
  | addVxVy (x y : Reg)
  /-- SUB Vx,Vy, 8XY5 (R127). -/
  | subVxVy (x y : Reg)
  /-- SHR Vx, 8X-6 (R128). -/
  | shrVx (x : Reg)
  /-- SUBN Vx,Vy, 8XY7 (R129). -/
  | subnVxVy (x y : Reg)
  /-- SHL Vx, 8X-E (R130). -/
  | shlVx (x : Reg)
  /-- SNE Vx,Vy, 9XY- (R106). -/
  | sneVxVy (x y : Reg)
  /-- LD I,NNN, ANNN (R140). -/
  | ldINNN (nnn : Addr)
  /-- JP V0,NNN, BNNN (R107). -/
  | jpV0NNN (nnn : Addr)
  /-- RND Vx,KK, CXKK (R133). -/
  | rndVxKK (x : Reg) (kk : Byte)
  /-- DRW Vx,Vy,N, DXYN (R161). -/
  | drwVxVyN (x y : Reg) (n : Nibble)
  /-- SKP Vx, EX9E (R170). -/
  | skpVx (x : Reg)
  /-- SKNP Vx, EXA1 (R171). -/
  | sknpVx (x : Reg)
  /-- LD Vx,DT, FX07 (R172). -/
  | ldVxDT (x : Reg)
  /-- LD Vx,K, FX0A (R173). -/
  | ldVxK (x : Reg)
  /-- LD DT,Vx, FX15 (R174). -/
  | ldDTVx (x : Reg)
  /-- LD ST,Vx, FX18 (R175). -/
  | ldSTVx (x : Reg)
  /-- ADD I,Vx, FX1E (R141). -/
  | addIVx (x : Reg)
  /-- LD F,Vx, FX29 (R142). -/
  | ldFVx (x : Reg)
  /-- LD B,Vx, FX33 (R143). -/
  | ldBVx (x : Reg)
  /-- LD [I],Vx, FX55 (R144). -/
  | ldMemVx (x : Reg)
  /-- LD Vx,[I], FX65 (R145). -/
  | ldVxMem (x : Reg)
  deriving DecidableEq, Repr

end Sys2Proof
end

