-- ==== Sys2Proof/WellFormed.lean ====
section
/-! DEFINITION. What a well-formed operand field, instruction and program image is. -/
namespace Sys2Proof.WellFormed

/-- A register number: a 4-bit field selects one of 16 registers (R63, R65). -/
def regOk (n : Nat) : Bool := decide (n < 16)

/-- KK: 0 to 255 (R65). -/
def byteOk (n : Nat) : Bool := decide (n < 256)

/-- N: 0 to 15 (R65). -/
def nibbleOk (n : Nat) : Bool := decide (n < 16)

/-- NNN: 0 to 4095 (R65). -/
def addrOk (n : Nat) : Bool := decide (n < 4096)

/-- A program image LoadProgram accepts: at most 3584 bytes (R202, R244). -/
def imageOk (image : List Byte) : Bool := decide (image.length ≤ Config.programMax)

/-- A key number a host event may carry (R219, D32). -/
def keyOk (n : Nat) : Bool := decide (n < 16)

/-- Every field of the instruction is in its range. The field types hold no other value, so every
instruction passes: "no decoded instruction is malformed; every run-time check is on values, not on
fields" (R72). -/
def instrOk : Instr → Bool
  | .cls => true
  | .ret => true
  | .jp nnn => addrOk nnn.toNat
  | .call nnn => addrOk nnn.toNat
  | .seVxKK x kk => regOk x.val && byteOk kk.toNat
  | .sneVxKK x kk => regOk x.val && byteOk kk.toNat
  | .seVxVy x y => regOk x.val && regOk y.val
  | .ldVxKK x kk => regOk x.val && byteOk kk.toNat
  | .addVxKK x kk => regOk x.val && byteOk kk.toNat
  | .ldVxVy x y => regOk x.val && regOk y.val
  | .orVxVy x y => regOk x.val && regOk y.val
  | .andVxVy x y => regOk x.val && regOk y.val
  | .xorVxVy x y => regOk x.val && regOk y.val
  | .addVxVy x y => regOk x.val && regOk y.val
  | .subVxVy x y => regOk x.val && regOk y.val
  | .shrVx x => regOk x.val
  | .subnVxVy x y => regOk x.val && regOk y.val
  | .shlVx x => regOk x.val
  | .sneVxVy x y => regOk x.val && regOk y.val
  | .ldINNN nnn => addrOk nnn.toNat
  | .jpV0NNN nnn => addrOk nnn.toNat
  | .rndVxKK x kk => regOk x.val && byteOk kk.toNat
  | .drwVxVyN x y n => regOk x.val && regOk y.val && nibbleOk n.toNat
  | .skpVx x => regOk x.val
  | .sknpVx x => regOk x.val
  | .ldVxDT x => regOk x.val
  | .ldVxK x => regOk x.val
  | .ldDTVx x => regOk x.val
  | .ldSTVx x => regOk x.val
  | .addIVx x => regOk x.val
  | .ldFVx x => regOk x.val
  | .ldBVx x => regOk x.val
  | .ldMemVx x => regOk x.val
  | .ldVxMem x => regOk x.val

end Sys2Proof.WellFormed
end

