-- ==== Sys2Proof/Decode.lean ====
section
/-! DEFINITION. Bytes to instructions and back: byte order, field positions, the decoder of R66 and R67
(total, refusing by name), and the encoder of R68. UNVERIFIED: the patterns and the field positions are
those of the spec's rules, which the spec marks as general knowledge (D1, D2, D3); log entry 10. -/
namespace Sys2Proof

/-- `{hi, lo}`: the byte at the lower address supplies bits 15:8 (R42). -/
def wordOfBytes (hi lo : Byte) : Word := hi ++ lo

/-- Bits 15:8, the byte stored at the lower address (R42). -/
def hiByte (w : Word) : Byte := w.extractLsb' 8 8

/-- Bits 7:0, the byte stored at the higher address (R42). -/
def loByte (w : Word) : Byte := w.extractLsb' 0 8

/-- The leading nibble `w[15:12]` (R63). -/
def fieldFamily (w : Word) : Nibble := w.extractLsb' 12 4

/-- The field X, `w[11:8]` (R63). -/
def fieldX (w : Word) : Reg := (w.extractLsb' 8 4).toFin

/-- The field Y, `w[7:4]` (R63). -/
def fieldY (w : Word) : Reg := (w.extractLsb' 4 4).toFin

/-- The field N, `w[3:0]` (R63). -/
def fieldN (w : Word) : Nibble := w.extractLsb' 0 4

/-- The field KK, `w[7:0]` (R63). -/
def fieldKK (w : Word) : Byte := w.extractLsb' 0 8

/-- The field NNN, `w[11:0]` (R63). -/
def fieldNNN (w : Word) : Addr := w.extractLsb' 0 12

/-- Why bytes are no instruction. R201 recommends a diagnostic per opcode family: the family is the
leading nibble of the word carried. -/
inductive DecodeError where
  /-- Fewer than two bytes: every instruction is two bytes (R62). -/
  | truncated
  /-- Family 0x0: neither 0x00E0 nor 0x00EE (R67, R69, R71). -/
  | unrecognized0 (w : Word)
  /-- Family 0x8: an unused low nibble (R67, R69). -/
  | unrecognized8 (w : Word)
  /-- Family 0xE: an unused low byte (R67, R69). -/
  | unrecognizedE (w : Word)
  /-- Family 0xF: an unused low byte (R67, R69). -/
  | unrecognizedF (w : Word)
  deriving DecidableEq, Repr

/-- Family 0x0: all twelve bits below the leading nibble are compared (R67). -/
def decodeFamily0 (w : Word) : Except DecodeError Instr :=
  if fieldNNN w = 0x0E0 then .ok .cls
  else if fieldNNN w = 0x0EE then .ok .ret
  else .error (.unrecognized0 w)

/-- Family 0x8: the low nibble selects (R67). -/
def decodeFamily8 (w : Word) : Except DecodeError Instr :=
  if fieldN w = 0x0 then .ok (.ldVxVy (fieldX w) (fieldY w))
  else if fieldN w = 0x1 then .ok (.orVxVy (fieldX w) (fieldY w))
  else if fieldN w = 0x2 then .ok (.andVxVy (fieldX w) (fieldY w))
  else if fieldN w = 0x3 then .ok (.xorVxVy (fieldX w) (fieldY w))
  else if fieldN w = 0x4 then .ok (.addVxVy (fieldX w) (fieldY w))
  else if fieldN w = 0x5 then .ok (.subVxVy (fieldX w) (fieldY w))
  else if fieldN w = 0x6 then .ok (.shrVx (fieldX w))
  else if fieldN w = 0x7 then .ok (.subnVxVy (fieldX w) (fieldY w))
  else if fieldN w = 0xE then .ok (.shlVx (fieldX w))
  else .error (.unrecognized8 w)

/-- Family 0xE: the low byte selects (R67). -/
def decodeFamilyE (w : Word) : Except DecodeError Instr :=
  if fieldKK w = 0x9E then .ok (.skpVx (fieldX w))
  else if fieldKK w = 0xA1 then .ok (.sknpVx (fieldX w))
  else .error (.unrecognizedE w)

/-- Family 0xF: the low byte selects (R67). -/
def decodeFamilyF (w : Word) : Except DecodeError Instr :=
  if fieldKK w = 0x07 then .ok (.ldVxDT (fieldX w))
  else if fieldKK w = 0x0A then .ok (.ldVxK (fieldX w))
  else if fieldKK w = 0x15 then .ok (.ldDTVx (fieldX w))
  else if fieldKK w = 0x18 then .ok (.ldSTVx (fieldX w))
  else if fieldKK w = 0x1E then .ok (.addIVx (fieldX w))
  else if fieldKK w = 0x29 then .ok (.ldFVx (fieldX w))
  else if fieldKK w = 0x33 then .ok (.ldBVx (fieldX w))
  else if fieldKK w = 0x55 then .ok (.ldMemVx (fieldX w))
  else if fieldKK w = 0x65 then .ok (.ldVxMem (fieldX w))
  else .error (.unrecognizedF w)

/-- `Decode(w)`: primary decode on the leading nibble (R66), secondary decode in families 0x0, 0x8, 0xE
and 0xF (R67). A pure function of the word (R72). -/
def decodeWord (w : Word) : Except DecodeError Instr :=
  if fieldFamily w = 0x0 then decodeFamily0 w
  else if fieldFamily w = 0x1 then .ok (.jp (fieldNNN w))
  else if fieldFamily w = 0x2 then .ok (.call (fieldNNN w))
  else if fieldFamily w = 0x3 then .ok (.seVxKK (fieldX w) (fieldKK w))
  else if fieldFamily w = 0x4 then .ok (.sneVxKK (fieldX w) (fieldKK w))
  else if fieldFamily w = 0x5 then .ok (.seVxVy (fieldX w) (fieldY w))
  else if fieldFamily w = 0x6 then .ok (.ldVxKK (fieldX w) (fieldKK w))
  else if fieldFamily w = 0x7 then .ok (.addVxKK (fieldX w) (fieldKK w))
  else if fieldFamily w = 0x8 then decodeFamily8 w
  else if fieldFamily w = 0x9 then .ok (.sneVxVy (fieldX w) (fieldY w))
  else if fieldFamily w = 0xA then .ok (.ldINNN (fieldNNN w))
  else if fieldFamily w = 0xB then .ok (.jpV0NNN (fieldNNN w))
  else if fieldFamily w = 0xC then .ok (.rndVxKK (fieldX w) (fieldKK w))
  else if fieldFamily w = 0xD then .ok (.drwVxVyN (fieldX w) (fieldY w) (fieldN w))
  else if fieldFamily w = 0xE then decodeFamilyE w
  else decodeFamilyF w

/-- The decoder on bytes as memory holds them: two bytes, big-endian (R42, R62), and the bytes left. -/
def decode : List Byte → Except DecodeError (Instr × List Byte)
  | hi :: lo :: rest =>
    match decodeWord (wordOfBytes hi lo) with
    | .ok i => .ok (i, rest)
    | .error e => .error e
  | _ => .error .truncated

/-- Format A: leading nibble, NNN (R64). -/
def packA (f : Nibble) (nnn : Addr) : Word := f ++ nnn

/-- Format XK: leading nibble, X, KK (R64). -/
def packXK (f : Nibble) (x : Reg) (kk : Byte) : Word := f ++ (BitVec.ofFin x : Nibble) ++ kk

/-- Formats XY, XYS and XYN: leading nibble, X, Y, low nibble (R64). -/
def packXYN (f : Nibble) (x y : Reg) (n : Nibble) : Word :=
  f ++ (BitVec.ofFin x : Nibble) ++ (BitVec.ofFin y : Nibble) ++ n

/-- The canonical word of an instruction (R68, R73): the bits R70 lets the decoder ignore are 0. -/
def encode : Instr → Word
  | .cls => 0x00E0
  | .ret => 0x00EE
  | .jp nnn => packA 0x1 nnn
  | .call nnn => packA 0x2 nnn
  | .seVxKK x kk => packXK 0x3 x kk
  | .sneVxKK x kk => packXK 0x4 x kk
  | .seVxVy x y => packXYN 0x5 x y 0x0
  | .ldVxKK x kk => packXK 0x6 x kk
  | .addVxKK x kk => packXK 0x7 x kk
  | .ldVxVy x y => packXYN 0x8 x y 0x0
  | .orVxVy x y => packXYN 0x8 x y 0x1
  | .andVxVy x y => packXYN 0x8 x y 0x2
  | .xorVxVy x y => packXYN 0x8 x y 0x3
  | .addVxVy x y => packXYN 0x8 x y 0x4
  | .subVxVy x y => packXYN 0x8 x y 0x5
  | .shrVx x => packXYN 0x8 x 0 0x6
  | .subnVxVy x y => packXYN 0x8 x y 0x7
  | .shlVx x => packXYN 0x8 x 0 0xE
  | .sneVxVy x y => packXYN 0x9 x y 0x0
  | .ldINNN nnn => packA 0xA nnn
  | .jpV0NNN nnn => packA 0xB nnn
  | .rndVxKK x kk => packXK 0xC x kk
  | .drwVxVyN x y n => packXYN 0xD x y n
  | .skpVx x => packXK 0xE x 0x9E
  | .sknpVx x => packXK 0xE x 0xA1
  | .ldVxDT x => packXK 0xF x 0x07
  | .ldVxK x => packXK 0xF x 0x0A
  | .ldDTVx x => packXK 0xF x 0x15
  | .ldSTVx x => packXK 0xF x 0x18
  | .addIVx x => packXK 0xF x 0x1E
  | .ldFVx x => packXK 0xF x 0x29
  | .ldBVx x => packXK 0xF x 0x33
  | .ldMemVx x => packXK 0xF x 0x55
  | .ldVxMem x => packXK 0xF x 0x65

/-- A row of the instruction list: `w` selects the row iff `w & mask = pattern` (R68). -/
structure OpcodeRow where
  pattern : Word
  mask : Word
  deriving DecidableEq, Repr

/-- Whether a word selects a row: `(w & mask) = match` (R68). -/
def rowMatches (r : OpcodeRow) (w : Word) : Bool := w &&& r.mask == r.pattern

/-- The match and mask columns of the row an instruction stands for (R68). -/
def opcodeRow : Instr → OpcodeRow
  | .cls => ⟨0x00E0, 0xFFFF⟩
  | .ret => ⟨0x00EE, 0xFFFF⟩
  | .jp _ => ⟨0x1000, 0xF000⟩
  | .call _ => ⟨0x2000, 0xF000⟩
  | .seVxKK _ _ => ⟨0x3000, 0xF000⟩
  | .sneVxKK _ _ => ⟨0x4000, 0xF000⟩
  | .seVxVy _ _ => ⟨0x5000, 0xF000⟩
  | .ldVxKK _ _ => ⟨0x6000, 0xF000⟩
  | .addVxKK _ _ => ⟨0x7000, 0xF000⟩
  | .ldVxVy _ _ => ⟨0x8000, 0xF00F⟩
  | .orVxVy _ _ => ⟨0x8001, 0xF00F⟩
  | .andVxVy _ _ => ⟨0x8002, 0xF00F⟩
  | .xorVxVy _ _ => ⟨0x8003, 0xF00F⟩
  | .addVxVy _ _ => ⟨0x8004, 0xF00F⟩
  | .subVxVy _ _ => ⟨0x8005, 0xF00F⟩
  | .shrVx _ => ⟨0x8006, 0xF00F⟩
  | .subnVxVy _ _ => ⟨0x8007, 0xF00F⟩
  | .shlVx _ => ⟨0x800E, 0xF00F⟩
  | .sneVxVy _ _ => ⟨0x9000, 0xF000⟩
  | .ldINNN _ => ⟨0xA000, 0xF000⟩
  | .jpV0NNN _ => ⟨0xB000, 0xF000⟩
  | .rndVxKK _ _ => ⟨0xC000, 0xF000⟩
  | .drwVxVyN _ _ _ => ⟨0xD000, 0xF000⟩
  | .skpVx _ => ⟨0xE09E, 0xF0FF⟩
  | .sknpVx _ => ⟨0xE0A1, 0xF0FF⟩
  | .ldVxDT _ => ⟨0xF007, 0xF0FF⟩
  | .ldVxK _ => ⟨0xF00A, 0xF0FF⟩
  | .ldDTVx _ => ⟨0xF015, 0xF0FF⟩
  | .ldSTVx _ => ⟨0xF018, 0xF0FF⟩
  | .addIVx _ => ⟨0xF01E, 0xF0FF⟩
  | .ldFVx _ => ⟨0xF029, 0xF0FF⟩
  | .ldBVx _ => ⟨0xF033, 0xF0FF⟩
  | .ldMemVx _ => ⟨0xF055, 0xF0FF⟩
  | .ldVxMem _ => ⟨0xF065, 0xF0FF⟩

/-- One instruction of each row, in the table's order: with `opcodeRow` it gives the table's rows (R68). -/
def rowRepresentatives : List Instr :=
  [.cls, .ret, .jp 0, .call 0, .seVxKK 0 0, .sneVxKK 0 0, .seVxVy 0 0, .ldVxKK 0 0, .addVxKK 0 0] ++
  [.ldVxVy 0 0, .orVxVy 0 0, .andVxVy 0 0, .xorVxVy 0 0, .addVxVy 0 0, .subVxVy 0 0, .shrVx 0,
    .subnVxVy 0 0, .shlVx 0, .sneVxVy 0 0] ++
  [.ldINNN 0, .jpV0NNN 0, .rndVxKK 0 0, .drwVxVyN 0 0 0, .skpVx 0, .sknpVx 0, .ldVxDT 0, .ldVxK 0,
    .ldDTVx 0, .ldSTVx 0] ++
  [.addIVx 0, .ldFVx 0, .ldBVx 0, .ldMemVx 0, .ldVxMem 0]

/-- The 34 match and mask pairs (R68). -/
def opcodeTable : List OpcodeRow := rowRepresentatives.map opcodeRow

/-- The word with the bits R70 ignores put to 0: `w[3:0]` of families 0x5 and 0x9, `w[7:4]` of SHR and
SHL. -/
def canonicalWord (w : Word) : Word :=
  if fieldFamily w = 0x5 ∨ fieldFamily w = 0x9 then w &&& 0xFFF0
  else if fieldFamily w = 0x8 ∧ (fieldN w = 0x6 ∨ fieldN w = 0xE) then w &&& 0xFF0F
  else w

/-- The host's question: the instruction the decoder reads from the word `w` numbered as
spec/opcode_table.json numbers it. Every instruction is one 16-bit word (R62), so bits above 15 are no
part of it; its bytes go to the decoder in the order memory holds them (R42). -/
def decodeTableWord (_nbits w : Nat) : Option Instr :=
  match decode [hiByte (BitVec.ofNat 16 w), loByte (BitVec.ofNat 16 w)] with
  | .ok (i, _) => some i
  | .error _ => none

end Sys2Proof
end

