-- ==== Sys2Proof/Machine/State.lean ====
section
/-! DEFINITION. The state of the CORE (R10 to R31), the reasons a run can stop, and the state after reset
(R32, R240). All plain data. -/
namespace Sys2Proof.Machine

/-- The seven faults of the CORE, all fatal (R200). Each is TAKEN: a next state with `halted` set and the
record written (R203), never a stop of the model; log entry 6. -/
inductive FaultCode where
  /-- Code 1: the fetched word matches no row (R201). -/
  | unrecognizedInstruction
  /-- Code 2: the program image is longer than 3584 bytes (R202). -/
  | programImageOverflow
  /-- Code 3: CALL with `sp` = 16 (R205). -/
  | stackOverflow
  /-- Code 4: RET with `sp` = 0 (R206). -/
  | stackUnderflow
  /-- Code 5: the address range of DRW, LD B, LD [I] or LD Vx,[I] exceeds 4095 (R207). -/
  | memoryOutOfRange
  /-- Code 6: fetch with `pc` > 4094 (R208). -/
  | fetchOutOfRange
  /-- Code 7: SKP or SKNP with Vx > 15 (R209). -/
  | keyIndexOutOfRange
  deriving DecidableEq, Repr

/-- The fault record `(code, pc, word)` of R30 and R200. `pc` is absent for code 2, `word` for codes 2 and
6. `length` is the image length R200 says is reported for code 2 (DEDUCED; safe; log entry 5). -/
structure FaultRecord where
  code : FaultCode
  pc : Option Word
  word : Option Word
  length : Option Nat
  deriving DecidableEq, Repr

/-- `mem` as the cells that differ from their reset content: addresses strictly rising (`Memory.wf`). -/
abbrev Memory := List Host.Cell

/-- Everything the spec gives the machine (R31: "the list of rules R10 to R30 is the whole state"), and the
model's own two fields `draws` and `soundStops`. -/
structure State where
  /-- The general registers V0 to VF (R10). -/
  v : Vector Byte 16
  /-- The index register (R14). -/
  i : Word
  /-- The program counter (R15). -/
  pc : Word
  /-- The return stack, a register file of its own (R18). -/
  stack : Vector Word 16
  /-- The stack pointer, the next free slot, 0 to 16 (R19, D24). -/
  sp : Fin 17
  /-- The delay timer (R21). -/
  dt : Byte
  /-- The sound timer (R21). -/
  st : Byte
  /-- Memory (R23). -/
  mem : Memory
  /-- The framebuffer, 2048 one-bit cells; cell `p` is bit `p` (R25, R26). -/
  fb : BitVec 2048
  /-- Which keys are held (R27). -/
  key : Vector Bool 16
  /-- Set by CLS and DRW, cleared by the host (R28). -/
  drawPending : Bool
  /-- The cycle counter of the timer policy, 0 to 9 (R29, D24). -/
  tick : Fin 10
  /-- The fault latch (R30). -/
  halted : Bool
  /-- The fault record; no record until a fault is taken (R30; log entry 3). -/
  fault : Option FaultRecord
  /-- The MODEL's own: how many bytes RND has drawn, the index of the next free value (log entry 1). -/
  draws : Nat
  /-- The MODEL's own: how many SoundStop events have been emitted, the CORE's audio output (R222; log
  entry 2). -/
  soundStops : Nat
  deriving DecidableEq, Repr

/-- Why a step of the MODEL stops. There is no such reason: every fault of the CORE has an entry the spec
describes (R203) and is taken as a next state, so nothing raises a `Fault` (safe; log entry 6). -/
inductive Fault where
  deriving DecidableEq, Repr

/-- Why the model gives an instruction no meaning. -/
inductive Refusal where
  /-- Raised by an arm of `exec` whose instruction has no meaning yet; no arm raises it now (safe: the
  model stops where the hardware goes on). -/
  | notModelled (mnemonic : String)
  deriving DecidableEq, Repr

/-- What a meaning and a step answer. -/
abbrev Result := Host.Outcome State Fault Refusal

/-- The state after reset and before a program is loaded (R32, R240). `fault`, `draws` and `soundStops`
have no reset value in the spec: DESIGN CHOICE, log entries 3, 1 and 2. -/
def State.reset : State where
  v := Vector.replicate 16 0
  i := 0
  pc := 0x200
  stack := Vector.replicate 16 0
  sp := 0
  dt := 0
  st := 0
  mem := []
  fb := 0
  key := Vector.replicate 16 false
  drawPending := false
  tick := 0
  halted := false
  fault := none
  draws := 0
  soundStops := 0

end Sys2Proof.Machine
end

