-- ==== Sys2Proof/Machine/Memory.lean ====
section
/-! DEFINITION. The operations on `mem` (R23, R40 to R48). Plain read-write storage of 4096 bytes: a read
"returns the value of the most recent write to that cell (or its reset or load value)" (R48). -/
namespace Sys2Proof.Machine

/-- Glyphs 0 to 7 (R242). UNVERIFIED: the spec marks all but the first byte as general knowledge
(decision D5); log entry 9. -/
def Memory.fontLow : List Byte :=
  [0xF0, 0x90, 0x90, 0x90, 0xF0] ++ [0x20, 0x60, 0x20, 0x20, 0x70] ++
  [0xF0, 0x10, 0xF0, 0x80, 0xF0] ++ [0xF0, 0x10, 0xF0, 0x10, 0xF0] ++
  [0x90, 0x90, 0xF0, 0x10, 0x10] ++ [0xF0, 0x80, 0xF0, 0x10, 0xF0] ++
  [0xF0, 0x80, 0xF0, 0x90, 0xF0] ++ [0xF0, 0x10, 0x20, 0x40, 0x40]

/-- Glyphs 8 to F (R242). UNVERIFIED as `fontLow`; log entry 9. -/
def Memory.fontHigh : List Byte :=
  [0xF0, 0x90, 0xF0, 0x90, 0xF0] ++ [0xF0, 0x90, 0xF0, 0x10, 0xF0] ++
  [0xF0, 0x90, 0xF0, 0x90, 0x90] ++ [0xE0, 0x90, 0xE0, 0x90, 0xE0] ++
  [0xF0, 0x80, 0x80, 0x80, 0xF0] ++ [0xE0, 0x90, 0x90, 0x90, 0xE0] ++
  [0xF0, 0x80, 0xF0, 0x80, 0xF0] ++ [0xF0, 0x80, 0xF0, 0x80, 0x80]

/-- The built-in character font: 16 glyphs of 5 bytes (R24, R242). -/
def Memory.font : List Byte := Memory.fontLow ++ Memory.fontHigh

/-- What an address nothing has written reads as: its content after reset, the font at 0x000 to 0x04F and 0
above (R24, R32, R242). -/
def Memory.resetByte (a : Nat) : Byte := Memory.font.getD a 0

/-- `mem[a]` (R48). An address above 4095 is no cell; callers check the range first (R44; log entry 17). -/
def Memory.read : Memory → Nat → Byte
  | [], a => Memory.resetByte a
  | (k, b) :: rest, a => if k = a then b else Memory.read rest a

/-- The list without the entries of `a`, so that `a` reads as its reset content. -/
def Memory.erase : Memory → Nat → Memory
  | [], _ => []
  | (k, b) :: rest, a => if k = a then Memory.erase rest a else (k, b) :: Memory.erase rest a

/-- The list with the entry of `a` put in its place in the rising order. -/
def Memory.insert : Memory → Nat → Byte → Memory
  | [], a, b => [(a, b)]
  | (k, c) :: rest, a, b =>
    if a < k then (a, b) :: (k, c) :: rest
    else if a = k then (a, b) :: rest
    else (k, c) :: Memory.insert rest a b

/-- `mem[a] <- b` (R48). Writing the reset content removes the entry, so equal memories are equal lists.
An address above 4095 is no cell and nothing is written; callers check the range first (R44; log entry
17). -/
def Memory.write (m : Memory) (a : Nat) (b : Byte) : Memory :=
  if a < Config.memSize then
    if b = Memory.resetByte a then Memory.erase m a else Memory.insert m a b
  else m

/-- The bytes at `a`, `a + 1`, …, `a + n - 1` (R43: ascending addresses). -/
def Memory.readN (m : Memory) (a : Nat) : Nat → List Byte
  | 0 => []
  | n + 1 => Memory.read m a :: Memory.readN m (a + 1) n

/-- Bytes written at `a`, `a + 1`, … in ascending order (R43). -/
def Memory.writeN (m : Memory) (a : Nat) : List Byte → Memory
  | [] => m
  | b :: bs => Memory.writeN (Memory.write m a b) (a + 1) bs

/-- The canonical form from address `lo` up: addresses strictly rising and below 4096, no entry equal to
what an unlisted address reads as. -/
def Memory.wfFrom (lo : Nat) : Memory → Bool
  | [] => true
  | (k, b) :: rest =>
    decide (lo ≤ k) && decide (k < Config.memSize) && (b != Memory.resetByte k) &&
      Memory.wfFrom (k + 1) rest

/-- The canonical form of memory. -/
def Memory.wf (m : Memory) : Bool := Memory.wfFrom 0 m

/-- The range check of R44: no byte of the `n` bytes at `a` is above 4095. A range of no bytes passes. -/
def Memory.inRange (a n : Nat) : Bool := decide (n = 0) || decide (a + n ≤ Config.memSize)

end Sys2Proof.Machine
end

