-- ==== Sys2Proof/Machine/Ops.lean ====
section
/-! DEFINITION. The named operations over registers, the stack, memory and the fault latch: one home for
every access a meaning makes. -/
namespace Sys2Proof.Machine

/-! Registers. -/

/-- `V[x]` (R10; no register is hardwired). -/
def State.getV (s : State) (x : Reg) : Byte := s.v.get x

/-- `V[x] <- b` (R10). -/
def State.setV (s : State) (x : Reg) (b : Byte) : State := { s with v := s.v.set x.val b x.isLt }

/-- The whole register file at once, for the block load (R145). -/
def State.setRegs (s : State) (v : Vector Byte 16) : State := { s with v := v }

/-- The number of VF, the flag output (R11). -/
def vf : Reg := 15

/-- `I <- w` (R14). -/
def State.setI (s : State) (w : Word) : State := { s with i := w }

/-- `DT <- b` (R21). -/
def State.setDT (s : State) (b : Byte) : State := { s with dt := b }

/-- `ST <- b` (R21). -/
def State.setST (s : State) (b : Byte) : State := { s with st := b }

/-- `key[k]` (R27). -/
def State.held (s : State) (k : Key) : Bool := s.key.get k

/-- `key[k] <- h`, a host operation (R219). -/
def State.setKey (s : State) (k : Key) (h : Bool) : State := { s with key := s.key.set k.val h k.isLt }

/-- `draw_pending <- b` (R28). -/
def State.setDrawPending (s : State) (b : Bool) : State := { s with drawPending := b }

/-- The whole framebuffer at once (R25). -/
def State.setFb (s : State) (fb : BitVec 2048) : State := { s with fb := fb }

/-- Cell `p` of a framebuffer (R25). -/
def fbCell (fb : BitVec 2048) (p : FbCell) : Bool := fb.getLsbD p.val

/-- A framebuffer with cell `p` flipped with exclusive-or (R161). -/
def fbFlip (fb : BitVec 2048) (p : FbCell) : BitVec 2048 := fb ^^^ BitVec.twoPow 2048 p.val

/-- `fb[p]` (R25). -/
def State.pixel (s : State) (p : FbCell) : Bool := fbCell s.fb p

/-- `mem` as a whole. -/
def State.setMem (s : State) (m : Memory) : State := { s with mem := m }

/-! The program counter. -/

/-- `pc <- w`; no check, no alignment (R17, R108). -/
def State.setPc (s : State) (w : Word) : State := { s with pc := w }

/-- The sequential advance: `pc <- pc + 2`, modulo 65536 (R16, R17). -/
def State.advance (s : State) : State := s.setPc (s.pc + 2)

/-- The conditional skip: `pc + 4` if the condition holds, else `pc + 2` (R16). -/
def State.skipIf (s : State) (c : Bool) : State := s.setPc (if c then s.pc + 4 else s.pc + 2)

/-! The return stack. -/

/-- `stack[sp] <- ret; sp <- sp + 1`, or nothing where `sp` = 16 (R19, R102). -/
def State.push? (s : State) (ret : Word) : Option State :=
  if h : s.sp.val < 16 then
    some { s with stack := s.stack.set s.sp.val ret h, sp := ⟨s.sp.val + 1, Nat.succ_lt_succ h⟩ }
  else none

/-- `sp <- sp - 1` and the slot `stack[sp]`, or nothing where `sp` = 0. The slot keeps its value (R19, R20,
R100). -/
def State.pop? (s : State) : Option (Word × State) :=
  if h : s.sp.val = 0 then none
  else
    have h16 : s.sp.val - 1 < 16 := by have := s.sp.isLt; omega
    some (s.stack.get ⟨s.sp.val - 1, h16⟩, { s with sp := ⟨s.sp.val - 1, Nat.lt_succ_of_lt h16⟩ })

/-! Memory. -/

/-- `MemRead` of `n` single bytes from `a`, or nothing where a byte address exceeds 4095: the whole range is
checked before the first access (R44). -/
def State.readRange? (s : State) (a n : Nat) : Option (List Byte) :=
  if Memory.inRange a n then some (Memory.readN s.mem a n) else none

/-- `MemWrite` of single bytes from `a`, or nothing where a byte address exceeds 4095: the whole range is
checked before the first access, so there is no partial effect (R44). -/
def State.writeRange? (s : State) (a : Nat) (bs : List Byte) : Option State :=
  if Memory.inRange a bs.length then some (s.setMem (Memory.writeN s.mem a bs)) else none

/-- `Fetch()`: the big-endian word at `pc`, or nothing where `pc` > 4094 (R42, R45, R61). -/
def State.fetchWord (s : State) : Option Word :=
  if 4094 < s.pc.toNat then none
  else some (wordOfBytes (Memory.read s.mem s.pc.toNat) (Memory.read s.mem (s.pc.toNat + 1)))

/-- The word `w` stored where the next cycle fetches, in memory's byte order (R42): the bytes LoadProgram
puts there stand for it (log entry 8). -/
def State.placeWord (s : State) (w : Word) : State :=
  s.setMem (Memory.writeN s.mem s.pc.toNat [hiByte w, loByte w])

/-! Taking a fault, the CORE's only exception. -/

/-- The code number of a fault (R200). -/
def faultNumber : FaultCode → Nat
  | .unrecognizedInstruction => 1
  | .programImageOverflow => 2
  | .stackOverflow => 3
  | .stackUnderflow => 4
  | .memoryOutOfRange => 5
  | .fetchOutOfRange => 6
  | .keyIndexOutOfRange => 7

/-- The latch and the record, written together: nothing else changes (R203). -/
def State.halt (s : State) (r : FaultRecord) : State := { s with halted := true, fault := some r }

/-- FAULT ENTRY (R203): every other piece of state keeps the value it had when the cycle began, `halted`
becomes true, the record holds the code, `pc` (still the faulting instruction's address) and the word, if
one was fetched. There is no return from a fault (R215): Reset is the only way out (`hostReset`). -/
def State.raiseFault (s : State) (code : FaultCode) (w : Option Word) : State :=
  s.halt { code := code, pc := some s.pc, word := w, length := none }

/-- A handler's fault: `w` is the instruction's word. The instructions whose handlers can fault have no
ignored bits (R64, R70), so their word is their encoding (DEDUCED; safe; log entry 4). -/
def faultIn (code : FaultCode) (i : Instr) (s : State) : Result :=
  .next (s.raiseFault code (some (encode i)))

/-- Step (1) failing (R45, R208): no word was fetched. -/
def State.faultInFetch (s : State) : State := s.raiseFault .fetchOutOfRange none

/-- Step (2) failing (R69, R201). -/
def State.faultInDecode (s : State) (w : Word) : State := s.raiseFault .unrecognizedInstruction (some w)

/-! The model's own bookkeeping. -/

/-- `draw8()`: the free byte of this execution, and the state in which it is used up (R133; log entry 1). -/
def State.draw8 (s : State) : Byte × State := (Config.freeByte s.draws, { s with draws := s.draws + 1 })

/-- `emit SoundStop` (R212; log entry 2). -/
def State.emitSoundStop (s : State) : State := { s with soundStops := s.soundStops + 1 }

end Sys2Proof.Machine
end

