-- ==== Sys2Proof/Machine/Flags.lean ====
section
/-! DEFINITION. The flag computations: VF is the carry, not-borrow, shifted-out and collision output of six
instructions (R11). All comparisons are unsigned (R131). -/
namespace Sys2Proof.Machine

/-- A flag as the byte VF receives: 1 or 0. -/
def flagByte (c : Bool) : Byte := if c then 1 else 0

/-- Carry out of ADD Vx,Vy: the 16-bit sum exceeds 255 (R126). -/
def carryFlag (a b : Byte) : Bool := decide (255 < a.toNat + b.toNat)

/-- The not-borrow flag of SUB and SUBN: the minuend is strictly greater (R127, R129, D28). -/
def notBorrowFlag (minuend subtrahend : Byte) : Bool := decide (subtrahend.toNat < minuend.toNat)

/-- The bit SHR shifts out: bit 0 of the old value (R128). -/
def shiftedOutRight (a : Byte) : Bool := a.getLsbD 0

/-- The bit SHL shifts out: bit 7 of the old value (R130). -/
def shiftedOutLeft (a : Byte) : Bool := a.getLsbD 7

/-- VF written first and Vx second, so that with X = 0xF the result is what `V[15]` holds afterwards
(R13, R132). UNVERIFIED: the order is the spec's decision D6; log entry 11. -/
def State.setFlagThenV (s : State) (flag : Bool) (x : Reg) (b : Byte) : State :=
  (s.setV vf (flagByte flag)).setV x b

end Sys2Proof.Machine
end

