-- ==== Sys2Proof/Machine/Operands.lean ====
section
/-! DEFINITION. Operand forms and the values instructions form from their operands. Register operands are
sampled before anything is written (R13): every meaning binds them first. -/
namespace Sys2Proof.Machine

/-- NNN zero-extended to 16 bits, for `pc` and `I` (R65). -/
def addrOperand (nnn : Addr) : Word := nnn.setWidth 16

/-- The implicit operand `V[0]` of JP V0,NNN (R107). -/
def State.v0 (s : State) : Byte := s.getV 0

/-- The target of JP V0,NNN: NNN + V0 + 2 in 16 bits (R107). -/
def indexedTarget (nnn : Addr) (v0 : Byte) : Word := addrOperand nnn + v0.setWidth 16 + 2

/-- The return address CALL pushes: `(pc + 2) mod 65536` (R102). -/
def State.returnAddress (s : State) : Word := s.pc + 2

/-- The address `I` as a memory address, on unbounded numbers: element `k` is at `I + k`, never wrapped
(R146). -/
def State.base (s : State) : Nat := s.i.toNat

/-- `(I + a) mod 65536` (R141). -/
def indexPlus (i : Word) (a : Byte) : Word := i + a.setWidth 16

/-- The glyph address `a * 5`, not masked, at most 1275 (R142). -/
def glyphAddress (a : Byte) : Word := BitVec.ofNat 16 (a.toNat * 5)

/-- The three decimal digits, hundreds first, each in a byte of its own (R143). -/
def bcdDigits (a : Byte) : List Byte :=
  [BitVec.ofNat 8 (a.toNat / 100), BitVec.ofNat 8 (a.toNat / 10 % 10), BitVec.ofNat 8 (a.toNat % 10)]

/-- The registers V0 to Vx, in ascending order: the block LD [I],Vx stores (R144). -/
def State.regBlock (s : State) (x : Reg) : List Byte := s.v.toList.take (x.val + 1)

/-- Bytes put into registers `k`, `k + 1`, … in ascending order (R145). -/
def fillRegs (k : Nat) : List Byte → Vector Byte 16 → Vector Byte 16
  | [], v => v
  | b :: bs, v => fillRegs (k + 1) bs (v.setIfInBounds k b)

/-- The key a register value names, or nothing where it is above 15: not masked (R176). -/
def keyOfValue (a : Byte) : Option Key := if h : a.toNat < 16 then some ⟨a.toNat, h⟩ else none

/-- The keys in the order LD Vx,K scans them (R173). -/
def keyOrder : List Key := [0, 1, 2, 3, 4, 5, 6, 7, 8, 9, 10, 11, 12, 13, 14, 15]

/-- The lowest held key, if one is held (R173). -/
def State.lowestHeld (s : State) : Option Key := keyOrder.find? s.held

/-- A key number as the byte LD Vx,K puts into Vx (R173). -/
def keyByte (k : Key) : Byte := BitVec.ofNat 8 k.val

end Sys2Proof.Machine
end

