-- ==== Sys2Proof/Machine/Arith.lean ====
section
/-! DEFINITION. Register load, arithmetic, logic, shift, random (41_load_and_alu.md, R120 to R133). None can
fault; every one ends with `pc <- pc + 2`. Byte arithmetic wraps modulo 256 (R131). -/
namespace Sys2Proof.Machine

/-- LD Vx,KK (R120). -/
def execLdVxKK (x : Reg) (kk : Byte) (s : State) : Result := .next (s.setV x kk).advance

/-- ADD Vx,KK: no flag (R121). -/
def execAddVxKK (x : Reg) (kk : Byte) (s : State) : Result := .next (s.setV x (s.getV x + kk)).advance

/-- LD Vx,Vy (R122). -/
def execLdVxVy (x y : Reg) (s : State) : Result := .next (s.setV x (s.getV y)).advance

/-- OR Vx,Vy: no flag (R123). -/
def execOrVxVy (x y : Reg) (s : State) : Result := .next (s.setV x (s.getV x ||| s.getV y)).advance

/-- AND Vx,Vy: no flag (R124). -/
def execAndVxVy (x y : Reg) (s : State) : Result := .next (s.setV x (s.getV x &&& s.getV y)).advance

/-- XOR Vx,Vy: no flag (R125). -/
def execXorVxVy (x y : Reg) (s : State) : Result := .next (s.setV x (s.getV x ^^^ s.getV y)).advance

/-- ADD Vx,Vy (R126, R132). -/
def execAddVxVy (x y : Reg) (s : State) : Result :=
  let a := s.getV x
  let b := s.getV y
  .next (s.setFlagThenV (carryFlag a b) x (a + b)).advance

/-- SUB Vx,Vy (R127, R132). -/
def execSubVxVy (x y : Reg) (s : State) : Result :=
  let a := s.getV x
  let b := s.getV y
  .next (s.setFlagThenV (notBorrowFlag a b) x (a - b)).advance

/-- SHR Vx (R128, R132): Vx in place, the field Y plays no part (D27). -/
def execShrVx (x : Reg) (s : State) : Result :=
  let a := s.getV x
  .next (s.setFlagThenV (shiftedOutRight a) x (a >>> 1)).advance

/-- SUBN Vx,Vy (R129, R132). -/
def execSubnVxVy (x y : Reg) (s : State) : Result :=
  let a := s.getV x
  let b := s.getV y
  .next (s.setFlagThenV (notBorrowFlag b a) x (b - a)).advance

/-- SHL Vx (R130, R132): Vx in place, the field Y plays no part (D27). -/
def execShlVx (x : Reg) (s : State) : Result :=
  let a := s.getV x
  .next (s.setFlagThenV (shiftedOutLeft a) x (a <<< 1)).advance

/-- RND Vx,KK: the free byte of this execution, masked (R133). -/
def execRndVxKK (x : Reg) (kk : Byte) (s : State) : Result :=
  match s.draw8 with
  | (r, t) => .next (t.setV x (r &&& kk)).advance

end Sys2Proof.Machine
end

