-- ==== Sys2Proof/Machine/Control.lean ====
section
/-! DEFINITION. Control transfer (40_control_transfer.md, R100 to R108). No target is checked, aligned or
masked (R108). -/
namespace Sys2Proof.Machine

/-- RET (R100). -/
def execRet (s : State) : Result :=
  match s.pop? with
  | some (target, t) => .next (t.setPc target)
  | none => faultIn .stackUnderflow .ret s

/-- JP NNN (R101). -/
def execJp (nnn : Addr) (s : State) : Result := .next (s.setPc (addrOperand nnn))

/-- CALL NNN (R102). -/
def execCall (nnn : Addr) (s : State) : Result :=
  match s.push? s.returnAddress with
  | some t => .next (t.setPc (addrOperand nnn))
  | none => faultIn .stackOverflow (.call nnn) s

/-- SE Vx,KK (R103). -/
def execSeVxKK (x : Reg) (kk : Byte) (s : State) : Result := .next (s.skipIf (s.getV x == kk))

/-- SNE Vx,KK (R104). -/
def execSneVxKK (x : Reg) (kk : Byte) (s : State) : Result := .next (s.skipIf (s.getV x != kk))

/-- SE Vx,Vy (R105). -/
def execSeVxVy (x y : Reg) (s : State) : Result := .next (s.skipIf (s.getV x == s.getV y))

/-- SNE Vx,Vy (R106). -/
def execSneVxVy (x y : Reg) (s : State) : Result := .next (s.skipIf (s.getV x != s.getV y))

/-- JP V0,NNN (R107): lands at NNN + V0 + 2, the literal behaviour the spec preserves (D15). -/
def execJpV0NNN (nnn : Addr) (s : State) : Result := .next (s.setPc (indexedTarget nnn s.v0))

end Sys2Proof.Machine
end

