-- ==== Sys2Proof/Machine/Display.lean ====
section
/-! DEFINITION. Display instructions (43_display.md, R160 to R163). The framebuffer is one flat ring of 2048
cells (R162). -/
namespace Sys2Proof.Machine

/-- `FbIndex(a, b, r, c) = ((a + c) + (b + r) * 64) mod 2048`, on unbounded numbers (R162). -/
def fbIndex (a b : Byte) (r c : Nat) : FbCell :=
  ⟨((a.toNat + c) + (b.toNat + r) * 64) % 2048, Nat.mod_lt _ (by decide)⟩

/-- Bit column `c` of a sprite byte, column 0 the most significant (R161, D30). -/
def spriteBit (b : Byte) (c : Nat) : Bool := b.getMsbD c

/-- What a draw in progress has made of the framebuffer and of the collision flag. -/
structure Blit where
  fb : BitVec 2048
  hit : Bool
  deriving DecidableEq, Repr

/-- A set sprite bit reaching cell `p`: the flag records whether the cell held 1, then the cell is flipped
(R161). -/
def flipCell (p : FbCell) (d : Blit) : Blit :=
  ⟨fbFlip d.fb p, d.hit || fbCell d.fb p⟩

/-- One sprite bit: a bit that is 0 touches nothing (R161). -/
def drawBit (a b : Byte) (r : Nat) (byte : Byte) (c : Nat) (d : Blit) : Blit :=
  if spriteBit byte c then flipCell (fbIndex a b r c) d else d

/-- The bit columns in the order R161 visits them. -/
def columns : List Nat := [0, 1, 2, 3, 4, 5, 6, 7]

/-- Row `r` of the sprite: its eight bits, most significant first (R161). -/
def drawRow (a b : Byte) (r : Nat) (byte : Byte) (d : Blit) : Blit :=
  columns.foldl (fun d c => drawBit a b r byte c d) d

/-- The rows `r`, `r + 1`, … of the sprite, in ascending order (R161). -/
def drawRows (a b : Byte) (r : Nat) : List Byte → Blit → Blit
  | [], d => d
  | byte :: rest, d => drawRows a b (r + 1) rest (drawRow a b r byte d)

/-- CLS (R160). -/
def execCls (s : State) : Result := .next ((s.setFb 0).setDrawPending true).advance

/-- DRW Vx,Vy,N (R161): the coordinates are sampled before VF is reset (R13); VF ends as the collision
flag, also when N = 0; `draw_pending` is set whether or not a pixel changed. -/
def execDrwVxVyN (x y : Reg) (n : Nibble) (s : State) : Result :=
  let a := s.getV x
  let b := s.getV y
  match s.readRange? s.base n.toNat with
  | some sprite =>
    let d := drawRows a b 0 sprite ⟨s.fb, false⟩
    .next (((s.setV vf (flagByte d.hit)).setFb d.fb).setDrawPending true).advance
  | none => faultIn .memoryOutOfRange (.drwVxVyN x y n) s

end Sys2Proof.Machine
end

