-- ==== Sys2Proof/Machine/IndexMem.lean ====
section
/-! DEFINITION. Index register and memory instructions (42_index_and_memory.md, R140 to R146). No memory
access changes `I` (R146); a store below 0x200 is performed like any other (R50). -/
namespace Sys2Proof.Machine

/-- LD I,NNN (R140). -/
def execLdINNN (nnn : Addr) (s : State) : Result := .next (s.setI (addrOperand nnn)).advance

/-- ADD I,Vx: wraps modulo 65536, no flag (R141). -/
def execAddIVx (x : Reg) (s : State) : Result := .next (s.setI (indexPlus s.i (s.getV x))).advance

/-- LD F,Vx: no memory access (R142). -/
def execLdFVx (x : Reg) (s : State) : Result := .next (s.setI (glyphAddress (s.getV x))).advance

/-- LD B,Vx (R143). -/
def execLdBVx (x : Reg) (s : State) : Result :=
  match s.writeRange? s.base (bcdDigits (s.getV x)) with
  | some t => .next t.advance
  | none => faultIn .memoryOutOfRange (.ldBVx x) s

/-- LD [I],Vx: X + 1 bytes (R144). -/
def execLdMemVx (x : Reg) (s : State) : Result :=
  match s.writeRange? s.base (s.regBlock x) with
  | some t => .next t.advance
  | none => faultIn .memoryOutOfRange (.ldMemVx x) s

/-- LD Vx,[I]: X + 1 bytes into V0 to Vx (R145). -/
def execLdVxMem (x : Reg) (s : State) : Result :=
  match s.readRange? s.base (x.val + 1) with
  | some bs => .next (s.setRegs (fillRegs 0 bs s.v)).advance
  | none => faultIn .memoryOutOfRange (.ldVxMem x) s

end Sys2Proof.Machine
end

