-- ==== Sys2Proof/Machine/KeypadTimer.lean ====
section
/-! DEFINITION. Keypad and timer instructions (44_keypad_and_timers.md, R170 to R176). -/
namespace Sys2Proof.Machine

/-- SKP Vx (R170): a value above 15 names no key and faults (R176). -/
def execSkpVx (x : Reg) (s : State) : Result :=
  match keyOfValue (s.getV x) with
  | some k => .next (s.skipIf (s.held k))
  | none => faultIn .keyIndexOutOfRange (.skpVx x) s

/-- SKNP Vx (R171): a value above 15 names no key and faults (R176). -/
def execSknpVx (x : Reg) (s : State) : Result :=
  match keyOfValue (s.getV x) with
  | some k => .next (s.skipIf (!s.held k))
  | none => faultIn .keyIndexOutOfRange (.sknpVx x) s

/-- LD Vx,DT: the value before this cycle's timer policy (R172). -/
def execLdVxDT (x : Reg) (s : State) : Result := .next (s.setV x s.dt).advance

/-- LD Vx,K: the lowest held key, or nothing at all while no key is held (R173). -/
def execLdVxK (x : Reg) (s : State) : Result :=
  match s.lowestHeld with
  | some k => .next (s.setV x (keyByte k)).advance
  | none => .next s

/-- LD DT,Vx: `tick` is not touched (R174). -/
def execLdDTVx (x : Reg) (s : State) : Result := .next (s.setDT (s.getV x)).advance

/-- LD ST,Vx: no signal of its own (R175). -/
def execLdSTVx (x : Reg) (s : State) : Result := .next (s.setST (s.getV x)).advance

end Sys2Proof.Machine
end

