-- ==== Sys2Proof/Machine/HostOps.lean ====
section
/-! DEFINITION. What the host does to the CORE, only between cycles (R218 to R223, R240, R243, R244). `step`
performs none of it: a run in which the host acts is a sequence of steps and of these (log entry 7). -/
namespace Sys2Proof.Machine

/-- `KeyPress(n)` (R219); `n` is 0 to 15 by its type (U16, D32). -/
def keyPress (k : Key) (s : State) : State := s.setKey k true

/-- `KeyRelease(n)` (R219). -/
def keyRelease (k : Key) (s : State) : State := s.setKey k false

/-- `DrawAck` (R221). -/
def drawAck (s : State) : State := s.setDrawPending false

/-- `Reset`, at any time between cycles and the only way out of halted (R204, R240): every piece of state to
its reset value. The model's own counters go on, so that draws after a Reset are fresh (log entry 16). -/
def hostReset (s : State) : State :=
  { State.reset with draws := s.draws, soundStops := s.soundStops }

/-- `LoadProgram(bytes)`, once after Reset (R243): the image at 0x200; one longer than 3584 bytes is
rejected: nothing is copied and the CORE is halted with code 2 (R202, R244). On other states than a reset
one it is outside the contract (D31; log entry 18). -/
def loadProgram (image : List Byte) (s : State) : State :=
  if WellFormed.imageOk image then s.setMem (Memory.writeN s.mem Config.programBase image)
  else s.halt { code := .programImageOverflow, pc := none, word := none, length := some image.length }

/-- What the host may send between two cycles (00_scope section 4, R223). -/
inductive HostEvent where
  | keyPress (k : Key)
  | keyRelease (k : Key)
  | drawAck
  deriving DecidableEq, Repr

/-- The effect of one host event. -/
def applyEvent (s : State) : HostEvent → State
  | .keyPress k => Sys2Proof.Machine.keyPress k s
  | .keyRelease k => Sys2Proof.Machine.keyRelease k s
  | .drawAck => Sys2Proof.Machine.drawAck s

/-- "Between two cycles the host may perform any finite sequence of KeyPress, KeyRelease and DrawAck, or
none" (R223). -/
def applyEvents (s : State) (events : List HostEvent) : State := events.foldl applyEvent s

end Sys2Proof.Machine
end

