-- ==== Sys2Proof/Machine/Timers.lean ====
section
/-! DEFINITION. The timer policy, step (4) of every non-faulting cycle (R60, R210 to R212). -/
namespace Sys2Proof.Machine

/-- `ServiceDT()` (R211). -/
def serviceDT (s : State) : State := if 0 < s.dt.toNat then s.setDT (s.dt - 1) else s

/-- `ServiceST()`: one SoundStop exactly when `ST` is 0 after the service (R212). -/
def serviceST (s : State) : State :=
  if 0 < s.st.toNat then
    if s.st = 1 then (s.setST (s.st - 1)).emitSoundStop else s.setST (s.st - 1)
  else s.emitSoundStop

/-- `TimerPolicy()`: count the cycle; on the tenth, back to 0 and both services (R210). -/
def timerPolicy (s : State) : State :=
  if h : s.tick.val + 1 < 10 then { s with tick := ⟨s.tick.val + 1, h⟩ }
  else serviceST (serviceDT { s with tick := 0 })

/-- What follows the handler in a cycle: the timer policy, unless the handler took a fault (R60, R203). -/
def finishCycle (s : State) : State := if s.halted then s else timerPolicy s

end Sys2Proof.Machine
end

