-- ==== Sys2Proof/Machine/Step.lean ====
section
/-! DEFINITION. One cycle (R60), and the host's way to place an instruction. -/
namespace Sys2Proof.Machine

/-- `Cycle()` (R60): nothing while halted (R204); else fetch, decode, execute, timer policy, and a fault in
the first three ends the cycle at once (R203). The checks are made in the order of R213. -/
def step (s : State) : Host.Outcome State Fault Refusal :=
  if s.halted then .next s
  else
    match s.fetchWord with
    | none => .next s.faultInFetch
    | some w =>
      match decodeWord w with
      | .error _ => .next (s.faultInDecode w)
      | .ok i =>
        match exec i s with
        | .next t => .next (finishCycle t)
        | .fault f => .fault f
        | .refused r => .refused r

/-- `s` with the instruction word `w`, numbered as spec/opcode_table.json numbers it, where `step` fetches
next. Every instruction is one 16-bit word (R62). Nothing else is changed: the CORE fetches at `pc`. -/
def State.withFetchWord (s : State) (_nbits w : Nat) : State := s.placeWord (BitVec.ofNat 16 w)

end Sys2Proof.Machine
end

