-- ==== Sys2Proof/Safety.lean ====
section
/-! DEFINITION. What claims are stated in: the invariant of the machine, the states a run can reach with the
host acting between cycles, and what counts as having gone wrong. -/
namespace Sys2Proof.Machine

/-- A run that reaches `halted` has gone wrong: it is no normal termination (R204). -/
def State.Running (s : State) : Prop := s.halted = false

/-- The invariant every step and every host operation keeps. Memory is canonical; `pc` is at most 0x1100,
"the largest value any rule can produce" (R17); every stack slot is at most 4096, the bound on what CALL
pushes (R102); a record is held while `halted` is set (R30, R203), and none while it is not: that last is
no rule of the spec but DESIGN CHOICE, unsafe, log entry 3. That `sp` is at most 16 (R19) and `tick` at
most 9 (R29) the types say. -/
def State.Inv (s : State) : Prop :=
  Memory.wf s.mem = true ∧ s.pc.toNat ≤ 0x1100 ∧ (∀ j : Fin 16, (s.stack.get j).toNat ≤ 4096) ∧
    s.halted = s.fault.isSome

/-- The states a run can reach: from Reset, by LoadProgram on a reset state, by cycles, by host events
between cycles, and by Reset again (R223, R240, R243). -/
inductive Reachable : State → Prop where
  | power : Reachable State.reset
  | reset (s : State) : Reachable s → Reachable (hostReset s)
  | load (s : State) (image : List Byte) : Reachable s → Reachable (loadProgram image (hostReset s))
  | event (s : State) (e : HostEvent) : Reachable s → Reachable (applyEvent s e)
  | cycle (s t : State) : Reachable s → step s = .next t → Reachable t

/-- Two states a program cannot tell apart (R33): they differ at most in `ST`, `draw_pending` and the count
of SoundStop events. -/
def State.SameToProgram (s t : State) : Prop :=
  { t with st := s.st, drawPending := s.drawPending, soundStops := s.soundStops } = s

/-- Two states that differ at most in stack slots at or above `sp`, which no rule reads before CALL has
rewritten them (R20). -/
def State.SameButStaleSlots (s t : State) : Prop :=
  { t with stack := s.stack } = s ∧ ∀ j : Fin 16, j.val < s.sp.val → t.stack.get j = s.stack.get j

/-- The sprite at `I` with `n` rows, drawn at `(V[x], V[y])`, has a set bit that lands on cell `q`: row `r`
of `n`, column `c` of 8, the most significant bit leftmost, on the flat ring of 2048 cells (R161, R162). -/
def State.SpriteLights (s : State) (x y : Reg) (n : Nibble) (q : FbCell) : Prop :=
  ∃ r c : Nat, r < n.toNat ∧ c < 8 ∧
    (Memory.read s.mem (s.i.toNat + r)).getLsbD (7 - c) = true ∧
    ((s.getV x).toNat + c + ((s.getV y).toNat + r) * 64) % 2048 = q.val

end Sys2Proof.Machine
end

