-- ==== Sys2Proof/Certificates/Slice0/Obligations.lean ====
section
/-! DEFINITION. The statements for the provers, from the numbered rules of spec/. A statement whose docstring
names a decision D<n> rests there on a choice the spec marks as its own. -/

open Sys2Proof Sys2Proof.Machine

/-! Reset, load, host operations. -/

/-- The reset table, every row of it (10_state section 12; decision D14 for `I`, `sp`, the timers, `fb`, `key`,
`draw_pending`; D18 for `halted`), for the first state and for a Reset applied to any state. That Reset
may be applied again is D14. Memory is the font at 0x000 to 0x04F, whose bytes are decision D5 and log
entry 9 and which `FontTableAfterReset` writes out, and 0 from 0x050 to 0xFFF. `fault` has no row. -/
def Obligations.ResetPutsEveryValue : Prop :=
  ∀ r : State, (r = State.reset ∨ ∃ s, r = hostReset s) →
    (∀ x, r.getV x = 0) ∧ r.i = 0 ∧ r.pc.toNat = 512 ∧ (∀ j, r.stack.get j = 0) ∧ r.sp.val = 0 ∧
    r.dt = 0 ∧ r.st = 0 ∧ (∀ p, r.pixel p = false) ∧ (∀ k, r.held k = false) ∧
    r.drawPending = false ∧ r.tick.val = 0 ∧ r.halted = false ∧
    (∀ a, a < 80 → Memory.read r.mem a = Memory.font.getD a 0) ∧
    (∀ a, 80 ≤ a → a ≤ 4095 → Memory.read r.mem a = 0)

/-- The font table (70_reset section 2), all 80 bytes in address order. The bytes are decision D5. -/
def Obligations.FontTableAfterReset : Prop :=
  (List.range 80).map (fun a => (Memory.read State.reset.mem a).toNat) =
    [0xF0, 0x90, 0x90, 0x90, 0xF0] ++ [0x20, 0x60, 0x20, 0x20, 0x70] ++ [0xF0, 0x10, 0xF0, 0x80, 0xF0] ++
    [0xF0, 0x10, 0xF0, 0x10, 0xF0] ++ [0x90, 0x90, 0xF0, 0x10, 0x10] ++ [0xF0, 0x80, 0xF0, 0x10, 0xF0] ++
    [0xF0, 0x80, 0xF0, 0x90, 0xF0] ++ [0xF0, 0x10, 0x20, 0x40, 0x40] ++ [0xF0, 0x90, 0xF0, 0x90, 0xF0] ++
    [0xF0, 0x90, 0xF0, 0x10, 0xF0] ++ [0xF0, 0x90, 0xF0, 0x90, 0x90] ++ [0xE0, 0x90, 0xE0, 0x90, 0xE0] ++
    [0xF0, 0x80, 0x80, 0x80, 0xF0] ++ [0xE0, 0x90, 0x90, 0x90, 0xE0] ++ [0xF0, 0x80, 0xF0, 0x80, 0xF0] ++
    [0xF0, 0x80, 0xF0, 0x80, 0x80]

/-- R24 and R243: after Reset and a load of at most 3584 bytes the font stands at 0x000 to 0x04F, 0 at 0x050
to 0x1FF, the image verbatim from 0x200, 0 beyond it up to 0xFFF, and nothing but memory is changed by the load; with
an empty image the first cycle fetches 0x0000 and faults. Which bytes the font has is not said here. -/
def Obligations.LoadedImageLayout : Prop :=
  ∀ image : List Byte, image.length ≤ 3584 →
    (∀ a, a < 0x50 →
      Memory.read (loadProgram image State.reset).mem a = Memory.font.getD a 0) ∧
    (∀ a, 0x50 ≤ a → a < 0x200 → Memory.read (loadProgram image State.reset).mem a = 0) ∧
    (∀ k, k < image.length →
      Memory.read (loadProgram image State.reset).mem (0x200 + k) = image.getD k 0) ∧
    (∀ a, 0x200 + image.length ≤ a → a ≤ 4095 →
      Memory.read (loadProgram image State.reset).mem a = 0) ∧
    { loadProgram image State.reset with mem := State.reset.mem } = State.reset ∧
    (image = [] → ∃ t, step (loadProgram image State.reset) = .next t ∧ t.halted = true ∧
      t.fault.map (fun r => (r.code, r.word)) = some (.unrecognizedInstruction, some 0x0000))

/-- An image of more than 3584 bytes: nothing is copied, the CORE is halted with code 2 and the length
reported, and no cycle ever executes (60_exceptions section 1; the latched form is decision D22, the code's
number D18, the record's `length` field log entry 5). -/
def Obligations.OverlongImageIsRejected : Prop :=
  ∀ image : List Byte, 3584 < image.length →
    loadProgram image State.reset =
      { State.reset with halted := true, fault := some ⟨.programImageOverflow, none, none, some image.length⟩ } ∧
    step (loadProgram image State.reset) = .next (loadProgram image State.reset) ∧
    faultNumber .programImageOverflow = 2

/-- KeyPress and KeyRelease set and clear the held state of one key, DrawAck clears `draw_pending`, and
nothing else changes (60_exceptions section 6; that the interface is these operations is decision D20). -/
def Obligations.HostKeyAndDrawOperations : Prop :=
  ∀ (s : State) (k : Key),
    ((∀ j, (keyPress k s).held j = if j = k then true else s.held j) ∧
      { keyPress k s with key := s.key } = s) ∧
    ((∀ j, (keyRelease k s).held j = if j = k then false else s.held j) ∧
      { keyRelease k s with key := s.key } = s) ∧
    ((drawAck s).drawPending = false ∧ { drawAck s with drawPending := s.drawPending } = s)

/-! The cycle. -/

/-- R42: the word fetched is `mem[pc] * 256 + mem[pc + 1]`, for even and odd `pc` alike. -/
def Obligations.FetchIsBigEndian : Prop :=
  ∀ s : State, s.pc.toNat ≤ 4094 → ∃ w, s.fetchWord = some w ∧
    w.toNat = (Memory.read s.mem s.pc.toNat).toNat * 256 + (Memory.read s.mem (s.pc.toNat + 1)).toNat

/-- Fetch with `pc` > 4094 takes FetchOutOfRange (20_memory section 3, 60_exceptions section 1; decision
D9): only the latch and the record change. -/
def Obligations.FetchBeyondTopFaults : Prop :=
  ∀ s : State, s.halted = false → 4094 < s.pc.toNat →
    step s = .next { s with halted := true, fault := some ⟨.fetchOutOfRange, some s.pc, none, none⟩ }

/-- A word with no handler takes UnrecognizedInstruction with its address and itself in the record, and
nothing else changes (60_exceptions section 1; which words is decision D3, the record D18). -/
def Obligations.UnrecognizedWordFaults : Prop :=
  ∀ (s : State) (w : Word) (e : DecodeError), s.halted = false → s.fetchWord = some w →
    decodeWord w = .error e →
    step s = .next { s with halted := true, fault := some ⟨.unrecognizedInstruction, some s.pc, some w, none⟩ }

/-- A cycle while halted changes nothing, `tick` included (60_exceptions section 2; decision D19). -/
def Obligations.HaltedCycleDoesNothing : Prop :=
  ∀ s : State, s.halted = true → step s = .next s

/-- A step runs the decoded instruction (30_encoding section 1): where the bytes at `pc` decode to `i`, the
step is `exec i`, then the timer policy unless the handler took a fault. -/
def Obligations.StepRunsDecodedInstruction : Prop :=
  ∀ (s t : State) (i : Instr), s.halted = false → s.pc.toNat ≤ 4094 →
    decodeWord (wordOfBytes (Memory.read s.mem s.pc.toNat) (Memory.read s.mem (s.pc.toNat + 1))) = .ok i →
    exec i s = .next t → step s = .next (if t.halted = true then t else timerPolicy t)

/-- Every cycle of every state answers a next state: no state of the CORE stops the model. That a fault and a
halted cycle answer a next state, and not a stop of the model, is the model's choice, log entry 6; that
the CORE stays in a state of its own there is decisions D18 and D19. -/
def Obligations.StepAlwaysAnswersNext : Prop :=
  ∀ s : State, ∃ t, step s = .next t

/-- Faults are precise (60_exceptions section 2; decision D18): a cycle that ends halted has changed
nothing but the latch and the record; the record holds the cycle's own `pc` and the word it fetched, if
any; code 2 is never raised by a cycle. The code's number tells the cause as the fault table of
60_exceptions section 1 has it (numbers: D18; which conditions fault: D3, D7 to D10): 6 where no word could
be fetched, 1 where the word has no handler, else the number of its instruction's fault. -/
def Obligations.FaultsArePrecise : Prop :=
  ∀ s t : State, s.halted = false → step s = .next t → t.halted = true →
    ∃ r : FaultRecord, t = { s with halted := true, fault := some r } ∧
      r.pc = some s.pc ∧ r.word = s.fetchWord ∧ r.length = none ∧ r.code ≠ .programImageOverflow ∧
      match s.fetchWord with
      | none => faultNumber r.code = 6
      | some w =>
        match decodeWord w with
        | .error _ => faultNumber r.code = 1
        | .ok i =>
          match i with
          | .call _ => faultNumber r.code = 3
          | .ret => faultNumber r.code = 4
          | .ldBVx _ | .ldMemVx _ | .ldVxMem _ | .drwVxVyN _ _ _ => faultNumber r.code = 5
          | .skpVx _ | .sknpVx _ => faultNumber r.code = 7
          | _ => False

/-- R210, R211, R212: after the handler of a non-faulting cycle `tick` counts; on the tenth cycle it goes
back to 0, `DT` and `ST` lose 1 unless they are 0, and one SoundStop is emitted exactly when `ST` was 1 or
0; nothing else changes. `e` is the state the handler left. -/
def Obligations.TimerPolicyEveryTenthCycle : Prop :=
  ∀ (s e : State) (w : Word) (i : Instr), s.halted = false → s.fetchWord = some w →
    decodeWord w = .ok i → exec i s = .next e → e.halted = false →
    ∃ t, step s = .next t ∧
      { t with tick := e.tick, dt := e.dt, st := e.st, soundStops := e.soundStops } = e ∧
      (e.tick.val < 9 →
        t.tick.val = e.tick.val + 1 ∧ t.dt = e.dt ∧ t.st = e.st ∧ t.soundStops = e.soundStops) ∧
      (e.tick.val = 9 →
        t.tick.val = 0 ∧ t.dt.toNat = e.dt.toNat - 1 ∧ t.st.toNat = e.st.toNat - 1 ∧
        t.soundStops = e.soundStops + (if e.st.toNat ≤ 1 then 1 else 0))

/-- A timer written in a servicing cycle is decremented in that same cycle, and LD Vx,DT in one reads the
value before the decrement (70_reset section 4, derived there). -/
def Obligations.TimerWriteInServicingCycle : Prop :=
  ∀ (s : State) (w : Word) (x : Reg), s.halted = false → s.fetchWord = some w → s.tick.val = 9 →
    (decodeWord w = .ok (.ldDTVx x) → ∃ t, step s = .next t ∧
      t.dt.toNat = (s.getV x).toNat - 1 ∧ t.tick.val = 0) ∧
    (decodeWord w = .ok (.ldSTVx x) → ∃ t, step s = .next t ∧
      t.st.toNat = (s.getV x).toNat - 1 ∧ t.tick.val = 0 ∧
      t.soundStops = s.soundStops + (if (s.getV x).toNat ≤ 1 then 1 else 0)) ∧
    (decodeWord w = .ok (.ldVxDT x) → ∃ t, step s = .next t ∧
      t.getV x = s.dt ∧ t.dt.toNat = s.dt.toNat - 1 ∧ t.tick.val = 0)

/-! The invariant. -/

/-- The invariant holds after reset: of the first state and of a Reset applied to any state (that Reset may be
applied again is decision D14). Its clause that no record is held while `halted` is false is the model's
choice, log entry 3: the spec calls the record meaningless there (10_state section 10). -/
def Obligations.InvariantHoldsAfterReset : Prop :=
  State.reset.Inv ∧ ∀ s : State, (hostReset s).Inv

/-- Every step keeps the invariant: canonical memory, `pc` at most 0x1100, stack slots at most 4096, a
record exactly while halted. The bounds are 10_state section 3 and 40_control_transfer section 2. That a
record is held while halted is 10_state section 10 and 60_exceptions section 2; that none is held while
running is the model's choice, log entry 3, and no rule of the spec. -/
def Obligations.StepKeepsInvariant : Prop :=
  ∀ s t : State, s.Inv → step s = .next t → t.Inv

/-- Host events between cycles, and LoadProgram after Reset, of any image, keep the invariant (that Reset may
be applied to any state is decision D14, that the host acts by these operations D20). Its clause that no
record is held while running is the model's choice, log entry 3. -/
def Obligations.HostOperationsKeepInvariant : Prop :=
  (∀ (s : State) (events : List HostEvent), s.Inv → (applyEvents s events).Inv) ∧
  ∀ (s : State) (image : List Byte), (loadProgram image (hostReset s)).Inv

/-- Every state a run can reach, whatever the image and the host's events, meets the invariant. Which runs
there are rests on decisions D14, D20 and D31 and on log entry 7. The invariant's clause that no record is
held while running is the model's choice, log entry 3. -/
def Obligations.ReachableStatesMeetInvariant : Prop :=
  ∀ s : State, Reachable s → s.Inv

/-! Encoding. The patterns and the field positions are decisions D1 to D3. -/

/-- Decode of encode is the instruction, for every instruction and every operand value. -/
def Obligations.DecodeEncodeAgree : Prop :=
  ∀ i : Instr, WellFormed.instrOk i = true ∧ decodeWord (encode i) = .ok i

/-- Encode of decode is the word with its ignored bits 0 (30_encoding section 5), and that word decodes
alike. -/
def Obligations.EncodeOfDecodeIsCanonical : Prop :=
  ∀ (w : Word) (i : Instr), decodeWord w = .ok i →
    encode i = canonicalWord w ∧ decodeWord (canonicalWord w) = .ok i

/-- The decoder follows the instruction list's match and mask columns (30_encoding section 4): a word
decodes to an instruction whose row it selects, it selects no other of the 34 rows, and a word that
selects a row decodes. -/
def Obligations.DecodeFollowsInstructionList : Prop :=
  opcodeTable.length = 34 ∧
  (∀ (w : Word) (i : Instr), decodeWord w = .ok i →
    opcodeRow i ∈ opcodeTable ∧ rowMatches (opcodeRow i) w = true ∧
    ∀ r ∈ opcodeTable, rowMatches r w = true → r = opcodeRow i) ∧
  ∀ (w : Word) (r : OpcodeRow), r ∈ opcodeTable → rowMatches r w = true → ∃ i, decodeWord w = .ok i

/-- The unrecognised words are exactly those of the four families' tables (30_encoding section 5). -/
def Obligations.UnrecognizedWordsExactly : Prop :=
  ∀ w : Word, (∃ e, decodeWord w = .error e) ↔
    (w.toNat / 4096 = 0x0 ∧ w.toNat ≠ 0x00E0 ∧ w.toNat ≠ 0x00EE) ∨
    (w.toNat / 4096 = 0x8 ∧ w.toNat % 16 ∈ [0x8, 0x9, 0xA, 0xB, 0xC, 0xD, 0xF]) ∨
    (w.toNat / 4096 = 0xE ∧ w.toNat % 256 ∉ [0x9E, 0xA1]) ∨
    (w.toNat / 4096 = 0xF ∧ w.toNat % 256 ∉ [0x07, 0x0A, 0x15, 0x18, 0x1E, 0x29, 0x33, 0x55, 0x65])

/-- Words of the spec's examples and vectors decode to the instructions they stand for, and near misses are
refused (95_test_vectors part 2). -/
def Obligations.SpecWordsDecode : Prop :=
  decodeWord 0x00E0 = .ok .cls ∧ decodeWord 0x00EE = .ok .ret ∧ decodeWord 0x1234 = .ok (.jp 0x234) ∧
  decodeWord 0x332A = .ok (.seVxKK 3 0x2A) ∧ decodeWord 0x5127 = .ok (.seVxVy 1 2) ∧
  decodeWord 0x81F4 = .ok (.addVxVy 1 15) ∧ decodeWord 0x8126 = .ok (.shrVx 1) ∧
  decodeWord 0xA2F0 = .ok (.ldINNN 0x2F0) ∧ decodeWord 0xC30F = .ok (.rndVxKK 3 0x0F) ∧
  decodeWord 0xD121 = .ok (.drwVxVyN 1 2 1) ∧ decodeWord 0xE5A1 = .ok (.sknpVx 5) ∧
  decodeWord 0xF20A = .ok (.ldVxK 2) ∧ decodeWord 0xF433 = .ok (.ldBVx 4) ∧
  decodeWord 0x0000 = .error (.unrecognized0 0x0000) ∧ decodeWord 0x01E0 = .error (.unrecognized0 0x01E0) ∧
  decodeWord 0x8128 = .error (.unrecognized8 0x8128) ∧ decodeWord 0xE19F = .error (.unrecognizedE 0xE19F) ∧
  decodeWord 0xF1FF = .error (.unrecognizedF 0xF1FF)

/-! Whole-machine rules over all 34 instructions. -/

/-- No instruction writes `key`, `tick` or the SoundStop output, and none clears `draw_pending` (10_state
sections 8 to 10, 60_exceptions section 6). -/
def Obligations.InstructionsLeaveKeysTickAndSignals : Prop :=
  ∀ (i : Instr) (s t : State), exec i s = .next t →
    t.key = s.key ∧ t.tick = s.tick ∧ t.soundStops = s.soundStops ∧
    (s.drawPending = true → t.drawPending = true) ∧
    (t.drawPending ≠ s.drawPending → i = .cls ∨ ∃ x y n, i = .drwVxVyN x y n)

/-- `I` is written only by LD I, ADD I and LD F; `stack` only by CALL, `sp` only by CALL and RET; `DT` only by
LD DT and `ST` only by LD ST; the draw count (log entry 1) only by RND (10_state sections 2, 4, 5). -/
def Obligations.IndexStackTimersHaveTheirWriters : Prop :=
  ∀ (i : Instr) (s t : State), exec i s = .next t →
    (t.i ≠ s.i → (∃ nnn, i = .ldINNN nnn) ∨ (∃ x, i = .addIVx x) ∨ ∃ x, i = .ldFVx x) ∧
    (t.stack ≠ s.stack → ∃ nnn, i = .call nnn) ∧
    (t.sp ≠ s.sp → i = .ret ∨ ∃ nnn, i = .call nnn) ∧
    (t.dt ≠ s.dt → ∃ x, i = .ldDTVx x) ∧
    (t.st ≠ s.st → ∃ x, i = .ldSTVx x) ∧
    (t.draws ≠ s.draws → ∃ x kk, i = .rndVxKK x kk)

/-- A byte of `mem` changes only under LD B and LD [I], only from `I` up and within their width, and a cell
of `fb` only under CLS and DRW (20_memory section 1, 10_state section 7). -/
def Obligations.MemoryAndFramebufferHaveTheirWriters : Prop :=
  ∀ (i : Instr) (s t : State), exec i s = .next t →
    (∀ a, Memory.read t.mem a ≠ Memory.read s.mem a →
      s.i.toNat ≤ a ∧ ((∃ x, i = .ldBVx x) ∧ a < s.i.toNat + 3 ∨
        ∃ x : Reg, i = .ldMemVx x ∧ a ≤ s.i.toNat + x.val)) ∧
    (t.fb ≠ s.fb → i = .cls ∨ ∃ x y n, i = .drwVxVyN x y n)

/-- A general register changes only where the access table lists it as written (10_state section 1): VF by
the six flag instructions, the destination Vx, V0 to Vx by the block load. -/
def Obligations.RegistersWrittenOnlyAsListed : Prop :=
  ∀ (i : Instr) (s t : State) (r : Reg), exec i s = .next t → t.getV r ≠ s.getV r →
    match i with
    | .ldVxKK x _ | .addVxKK x _ | .ldVxVy x _ | .orVxVy x _ | .andVxVy x _ | .xorVxVy x _
    | .rndVxKK x _ | .ldVxDT x | .ldVxK x => r = x
    | .addVxVy x _ | .subVxVy x _ | .subnVxVy x _ | .shrVx x | .shlVx x => r = x ∨ r = 15
    | .drwVxVyN _ _ _ => r = 15
    | .ldVxMem x => r.val ≤ x.val
    | _ => False

/-- A program cannot read `ST`, `draw_pending` or the SoundStop output (10_state section 13, derived there):
two states that differ only there step to two states that differ only there. -/
def Obligations.ProgramCannotSeeSoundAndDrawState : Prop :=
  ∀ s s' t t' : State, s.SameToProgram s' → step s = .next t → step s' = .next t' → t.SameToProgram t'

/-- Stack slots at or above `sp` are unobservable (10_state section 4, derived there): two states that differ
only there step to two states that differ only there. -/
def Obligations.StaleStackSlotsUnobservable : Prop :=
  ∀ s s' t t' : State, s.SameButStaleSlots s' → step s = .next t → step s' = .next t' →
    t.SameButStaleSlots t'

/-! Control transfer. -/

/-- R101: `pc` becomes NNN; nothing else changes. -/
def Obligations.JumpSetsPc : Prop :=
  ∀ (nnn : Addr) (s : State), ∃ t, exec (.jp nnn) s = .next t ∧ t.pc.toNat = nnn.toNat ∧
    { t with pc := s.pc } = s

/-- JP V0,NNN lands at NNN + V0 + 2, without truncation to 12 bits (40_control_transfer section 4; decision
D15); nothing else changes. -/
def Obligations.IndexedJumpLandsTwoFurther : Prop :=
  ∀ (nnn : Addr) (s : State), ∃ t, exec (.jpV0NNN nnn) s = .next t ∧
    t.pc.toNat = nnn.toNat + (s.getV 0).toNat + 2 ∧ { t with pc := s.pc } = s

/-- CALL with room: `pc + 2` into slot `sp`, `sp` up by one, `pc` = NNN; the other slots and everything else
unchanged (40_control_transfer section 2; that `sp` = 16 is another case is decision D7). -/
def Obligations.CallPushesReturnAddress : Prop :=
  ∀ (nnn : Addr) (s : State), s.sp.val < 16 → ∃ t, exec (.call nnn) s = .next t ∧
    t.pc.toNat = nnn.toNat ∧ t.sp.val = s.sp.val + 1 ∧
    (∀ j : Fin 16, j.val = s.sp.val → (t.stack.get j).toNat = (s.pc.toNat + 2) % 65536) ∧
    (∀ j : Fin 16, j.val ≠ s.sp.val → t.stack.get j = s.stack.get j) ∧
    { t with pc := s.pc, sp := s.sp, stack := s.stack } = s

/-- RET with an address stacked: `sp` down by one, `pc` the popped slot, no 2 added, the slot keeps its value;
nothing else changes (40_control_transfer section 2; that `sp` = 0 is another case is decision D7). -/
def Obligations.ReturnPopsAddress : Prop :=
  ∀ (s : State) (j : Fin 16), s.sp.val = j.val + 1 → ∃ t, exec .ret s = .next t ∧
    t.pc = s.stack.get j ∧ t.sp.val = j.val ∧ { t with pc := s.pc, sp := s.sp } = s

/-- CALL with 16 addresses stacked and RET with none take StackOverflow and StackUnderflow: only the latch
and the record change (60_exceptions section 1; decisions D7, D18). -/
def Obligations.StackFaultsAreTaken : Prop :=
  (∀ (nnn : Addr) (s : State), s.sp.val = 16 → ∃ w : Word, w.toNat = 0x2000 + nnn.toNat ∧
    exec (.call nnn) s =
      .next { s with halted := true, fault := some ⟨.stackOverflow, some s.pc, some w, none⟩ }) ∧
  ∀ s : State, s.sp.val = 0 → exec .ret s =
    .next { s with halted := true, fault := some ⟨.stackUnderflow, some s.pc, some 0x00EE, none⟩ }

/-- CALL then RET comes back to the instruction after the CALL, with the stack pointer as before
(95_test_vectors S6). What ran in between may have changed all but `stack` and `sp`: `u` is any such
state. -/
def Obligations.CallThenReturnComesBack : Prop :=
  ∀ (nnn : Addr) (s u : State), s.sp.val < 16 → ∃ t, exec (.call nnn) s = .next t ∧
    ∃ r, exec .ret { u with stack := t.stack, sp := t.sp } = .next r ∧
      r.pc = s.pc + 2 ∧ r.sp = s.sp

/-- R103 and R104: the skip compares Vx with KK; 4 is added to `pc` if it is taken, else 2; nothing else
changes. -/
def Obligations.ImmediateSkips : Prop :=
  ∀ (x : Reg) (kk : Byte) (s : State),
    (∃ t, exec (.seVxKK x kk) s = .next t ∧ { t with pc := s.pc } = s ∧
      t.pc = s.pc + BitVec.ofNat 16 (if (s.getV x).toNat = kk.toNat then 4 else 2)) ∧
    (∃ t, exec (.sneVxKK x kk) s = .next t ∧ { t with pc := s.pc } = s ∧
      t.pc = s.pc + BitVec.ofNat 16 (if (s.getV x).toNat = kk.toNat then 2 else 4))

/-- R105 and R106: the skip compares Vx with Vy; with X = Y SE always skips and SNE never does; nothing else
changes. -/
def Obligations.RegisterSkips : Prop :=
  ∀ (x y : Reg) (s : State),
    (∃ t, exec (.seVxVy x y) s = .next t ∧ { t with pc := s.pc } = s ∧
      t.pc = s.pc + BitVec.ofNat 16 (if (s.getV x).toNat = (s.getV y).toNat then 4 else 2) ∧
      (x = y → t.pc = s.pc + 4)) ∧
    (∃ t, exec (.sneVxVy x y) s = .next t ∧ { t with pc := s.pc } = s ∧
      t.pc = s.pc + BitVec.ofNat 16 (if (s.getV x).toNat = (s.getV y).toNat then 2 else 4) ∧
      (x = y → t.pc = s.pc + 2))

/-! Loads, arithmetic, logic, shifts, random. -/

/-- R120, R121, R122: Vx becomes KK, `(Vx + KK) mod 256`, Vy; no flag: every other register, VF among them,
and everything but `pc` unchanged. -/
def Obligations.LoadsAndAddImmediate : Prop :=
  ∀ (x y : Reg) (kk : Byte) (s : State),
    (∃ t, exec (.ldVxKK x kk) s = .next t ∧ t.getV x = kk ∧ (∀ z, z ≠ x → t.getV z = s.getV z) ∧
      t.pc = s.pc + 2 ∧ { t with v := s.v, pc := s.pc } = s) ∧
    (∃ t, exec (.addVxKK x kk) s = .next t ∧
      (t.getV x).toNat = ((s.getV x).toNat + kk.toNat) % 256 ∧ (∀ z, z ≠ x → t.getV z = s.getV z) ∧
      t.pc = s.pc + 2 ∧ { t with v := s.v, pc := s.pc } = s) ∧
    (∃ t, exec (.ldVxVy x y) s = .next t ∧ t.getV x = s.getV y ∧ (∀ z, z ≠ x → t.getV z = s.getV z) ∧
      t.pc = s.pc + 2 ∧ { t with v := s.v, pc := s.pc } = s)

/-- R123, R124, R125: Vx becomes the bitwise or, and, exclusive or; VF is neither written nor cleared unless
it is Vx; nothing else but `pc` changes. -/
def Obligations.LogicOperations : Prop :=
  ∀ (x y : Reg) (s : State),
    (∃ t, exec (.orVxVy x y) s = .next t ∧
      (t.getV x).toNat = (s.getV x).toNat ||| (s.getV y).toNat ∧ (∀ z, z ≠ x → t.getV z = s.getV z) ∧
      t.pc = s.pc + 2 ∧ { t with v := s.v, pc := s.pc } = s) ∧
    (∃ t, exec (.andVxVy x y) s = .next t ∧
      (t.getV x).toNat = (s.getV x).toNat &&& (s.getV y).toNat ∧ (∀ z, z ≠ x → t.getV z = s.getV z) ∧
      t.pc = s.pc + 2 ∧ { t with v := s.v, pc := s.pc } = s) ∧
    (∃ t, exec (.xorVxVy x y) s = .next t ∧
      (t.getV x).toNat = (s.getV x).toNat ^^^ (s.getV y).toNat ∧ (∀ z, z ≠ x → t.getV z = s.getV z) ∧
      t.pc = s.pc + 2 ∧ { t with v := s.v, pc := s.pc } = s)

/-- ADD Vx,Vy where neither operand is VF (41_load_and_alu section 4): VF = 1 iff the sum exceeds 255, Vx the sum modulo 256; every other
register and everything but `pc` unchanged. The forms with X or Y = 0xF: `FlagInstructionsOnVF`. -/
def Obligations.AddSetsCarry : Prop :=
  ∀ (x y : Reg) (s : State), x ≠ 15 → y ≠ 15 → ∃ t, exec (.addVxVy x y) s = .next t ∧
    (t.getV x).toNat = ((s.getV x).toNat + (s.getV y).toNat) % 256 ∧
    (t.getV 15).toNat = (if (s.getV x).toNat + (s.getV y).toNat > 255 then 1 else 0) ∧
    (∀ z, z ≠ x → z ≠ 15 → t.getV z = s.getV z) ∧
    t.pc = s.pc + 2 ∧ { t with v := s.v, pc := s.pc } = s

/-- SUB and SUBN where neither operand is VF (41_load_and_alu section 4): VF = 1 iff the minuend is strictly
greater (decision D28), Vx the difference modulo 256 (on integers); the rest unchanged. The forms with X or
Y = 0xF: `FlagInstructionsOnVF`. -/
def Obligations.SubtractionsSetNotBorrow : Prop :=
  ∀ (x y : Reg) (s : State), x ≠ 15 → y ≠ 15 →
    (∃ t, exec (.subVxVy x y) s = .next t ∧
      ((t.getV x).toNat : Int) = (((s.getV x).toNat : Int) - (s.getV y).toNat) % 256 ∧
      (t.getV 15).toNat = (if (s.getV x).toNat > (s.getV y).toNat then 1 else 0) ∧
      (∀ z, z ≠ x → z ≠ 15 → t.getV z = s.getV z) ∧
      t.pc = s.pc + 2 ∧ { t with v := s.v, pc := s.pc } = s) ∧
    (∃ t, exec (.subnVxVy x y) s = .next t ∧
      ((t.getV x).toNat : Int) = (((s.getV y).toNat : Int) - (s.getV x).toNat) % 256 ∧
      (t.getV 15).toNat = (if (s.getV y).toNat > (s.getV x).toNat then 1 else 0) ∧
      (∀ z, z ≠ x → z ≠ 15 → t.getV z = s.getV z) ∧
      t.pc = s.pc + 2 ∧ { t with v := s.v, pc := s.pc } = s)

/-- SHR and SHL where Vx is not VF (41_load_and_alu section 5): SHR halves Vx and VF is the bit shifted out; SHL
doubles it modulo 256 and VF is its old top bit; the rest unchanged. Vx is shifted in place (decision D27). The form with X = 0xF: `FlagInstructionsOnVF`. -/
def Obligations.ShiftsCaptureShiftedOutBit : Prop :=
  ∀ (x : Reg) (s : State), x ≠ 15 →
    (∃ t, exec (.shrVx x) s = .next t ∧ (t.getV x).toNat = (s.getV x).toNat / 2 ∧
      (t.getV 15).toNat = (s.getV x).toNat % 2 ∧ (∀ z, z ≠ x → z ≠ 15 → t.getV z = s.getV z) ∧
      t.pc = s.pc + 2 ∧ { t with v := s.v, pc := s.pc } = s) ∧
    (∃ t, exec (.shlVx x) s = .next t ∧ (t.getV x).toNat = 2 * (s.getV x).toNat % 256 ∧
      (t.getV 15).toNat = (s.getV x).toNat / 128 ∧ (∀ z, z ≠ x → z ≠ 15 → t.getV z = s.getV z) ∧
      t.pc = s.pc + 2 ∧ { t with v := s.v, pc := s.pc } = s)

/-- The flag instructions with VF as an operand (41_load_and_alu section 6; decision D6): with X = 0xF the
result stands and the flag is lost; with Y = 0xF and another X the old VF is the operand and VF ends as
the flag. Every other register and everything but `pc` unchanged. -/
def Obligations.FlagInstructionsOnVF : Prop :=
  ∀ (y : Reg) (s : State),
    (∃ t, exec (.addVxVy 15 y) s = .next t ∧
      (t.getV 15).toNat = ((s.getV 15).toNat + (s.getV y).toNat) % 256 ∧
      (∀ z, z ≠ 15 → t.getV z = s.getV z) ∧ t.pc = s.pc + 2 ∧ { t with v := s.v, pc := s.pc } = s) ∧
    (∃ t, exec (.subVxVy 15 y) s = .next t ∧
      ((t.getV 15).toNat : Int) = (((s.getV 15).toNat : Int) - (s.getV y).toNat) % 256 ∧
      (∀ z, z ≠ 15 → t.getV z = s.getV z) ∧ t.pc = s.pc + 2 ∧ { t with v := s.v, pc := s.pc } = s) ∧
    (∃ t, exec (.subnVxVy 15 y) s = .next t ∧
      ((t.getV 15).toNat : Int) = (((s.getV y).toNat : Int) - (s.getV 15).toNat) % 256 ∧
      (∀ z, z ≠ 15 → t.getV z = s.getV z) ∧ t.pc = s.pc + 2 ∧ { t with v := s.v, pc := s.pc } = s) ∧
    (∃ t, exec (.shrVx 15) s = .next t ∧ (t.getV 15).toNat = (s.getV 15).toNat / 2 ∧
      (∀ z, z ≠ 15 → t.getV z = s.getV z) ∧ t.pc = s.pc + 2 ∧ { t with v := s.v, pc := s.pc } = s) ∧
    (∃ t, exec (.shlVx 15) s = .next t ∧ (t.getV 15).toNat = 2 * (s.getV 15).toNat % 256 ∧
      (∀ z, z ≠ 15 → t.getV z = s.getV z) ∧ t.pc = s.pc + 2 ∧ { t with v := s.v, pc := s.pc } = s) ∧
    (y ≠ 15 →
      (∃ t, exec (.addVxVy y 15) s = .next t ∧
        (t.getV y).toNat = ((s.getV y).toNat + (s.getV 15).toNat) % 256 ∧
        (t.getV 15).toNat = (if (s.getV y).toNat + (s.getV 15).toNat > 255 then 1 else 0) ∧
        (∀ z, z ≠ y → z ≠ 15 → t.getV z = s.getV z) ∧
        t.pc = s.pc + 2 ∧ { t with v := s.v, pc := s.pc } = s) ∧
      (∃ t, exec (.subVxVy y 15) s = .next t ∧
        ((t.getV y).toNat : Int) = (((s.getV y).toNat : Int) - (s.getV 15).toNat) % 256 ∧
        (t.getV 15).toNat = (if (s.getV y).toNat > (s.getV 15).toNat then 1 else 0) ∧
        (∀ z, z ≠ y → z ≠ 15 → t.getV z = s.getV z) ∧
        t.pc = s.pc + 2 ∧ { t with v := s.v, pc := s.pc } = s) ∧
      (∃ t, exec (.subnVxVy y 15) s = .next t ∧
        ((t.getV y).toNat : Int) = (((s.getV 15).toNat : Int) - (s.getV y).toNat) % 256 ∧
        (t.getV 15).toNat = (if (s.getV 15).toNat > (s.getV y).toNat then 1 else 0) ∧
        (∀ z, z ≠ y → z ≠ 15 → t.getV z = s.getV z) ∧
        t.pc = s.pc + 2 ∧ { t with v := s.v, pc := s.pc } = s))

/-- RND: Vx becomes the byte drawn, masked with KK, so no bit KK has clear is set; one draw is used up; the
rest unchanged (41_load_and_alu section 7; decision D17). The draw is the free value of log entry 1, and
this holds for every value of it. -/
def Obligations.RandomByteIsMasked : Prop :=
  ∀ (x : Reg) (kk : Byte) (s : State), ∃ t, exec (.rndVxKK x kk) s = .next t ∧
    t.getV x = Config.freeByte s.draws &&& kk ∧
    (∀ k, kk.getLsbD k = false → (t.getV x).getLsbD k = false) ∧
    (∀ z, z ≠ x → t.getV z = s.getV z) ∧ t.draws = s.draws + 1 ∧ t.pc = s.pc + 2 ∧
    { t with v := s.v, draws := s.draws, pc := s.pc } = s

/-! Index register and memory. -/

/-- LD I: `I` becomes NNN. LD F: `I` becomes five times the whole of Vx, unmasked (decision D25). Nothing else
but `pc` changes (42_index_and_memory section 2). -/
def Obligations.IndexLoads : Prop :=
  ∀ (x : Reg) (nnn : Addr) (s : State),
    (∃ t, exec (.ldINNN nnn) s = .next t ∧ t.i.toNat = nnn.toNat ∧ t.pc = s.pc + 2 ∧
      { t with i := s.i, pc := s.pc } = s) ∧
    (∃ t, exec (.ldFVx x) s = .next t ∧ t.i.toNat = (s.getV x).toNat * 5 ∧ t.pc = s.pc + 2 ∧
      { t with i := s.i, pc := s.pc } = s)

/-- ADD I,Vx: the sum modulo 65536, no flag (42_index_and_memory section 2; the wrap is decision D11);
nothing else but `pc` changes. -/
def Obligations.IndexAddWraps : Prop :=
  ∀ (x : Reg) (s : State), ∃ t, exec (.addIVx x) s = .next t ∧
    t.i.toNat = (s.i.toNat + (s.getV x).toNat) % 65536 ∧ t.pc = s.pc + 2 ∧
    { t with i := s.i, pc := s.pc } = s

/-- LD B within memory: the three decimal digits of Vx at `I`, `I + 1`, `I + 2`, hundreds first; every other
byte, `I` and the registers unchanged; a store below 0x200 like any other (42_index_and_memory section 3;
decisions D8, D13, D26). -/
def Obligations.BcdStoresDigits : Prop :=
  ∀ (x : Reg) (s : State), s.i.toNat + 2 ≤ 4095 → ∃ t, exec (.ldBVx x) s = .next t ∧
    (Memory.read t.mem s.i.toNat).toNat * 100 + (Memory.read t.mem (s.i.toNat + 1)).toNat * 10 +
      (Memory.read t.mem (s.i.toNat + 2)).toNat = (s.getV x).toNat ∧
    (Memory.read t.mem s.i.toNat).toNat ≤ 2 ∧ (Memory.read t.mem (s.i.toNat + 1)).toNat ≤ 9 ∧
    (Memory.read t.mem (s.i.toNat + 2)).toNat ≤ 9 ∧
    (∀ a, a < s.i.toNat ∨ s.i.toNat + 2 < a → Memory.read t.mem a = Memory.read s.mem a) ∧
    t.pc = s.pc + 2 ∧ { t with mem := s.mem, pc := s.pc } = s

/-- LD [I],Vx within memory: register k at `I + k` for k up to X; every other byte, `I` and the registers
unchanged (42_index_and_memory section 3; decisions D8, D13, D26). -/
def Obligations.BlockStoreWritesRegisters : Prop :=
  ∀ (x : Reg) (s : State), s.i.toNat + x.val ≤ 4095 → ∃ t, exec (.ldMemVx x) s = .next t ∧
    (∀ k : Reg, k.val ≤ x.val → Memory.read t.mem (s.i.toNat + k.val) = s.getV k) ∧
    (∀ a, a < s.i.toNat ∨ s.i.toNat + x.val < a → Memory.read t.mem a = Memory.read s.mem a) ∧
    t.pc = s.pc + 2 ∧ { t with mem := s.mem, pc := s.pc } = s

/-- LD Vx,[I] within memory: register k from `I + k` for k up to X; the registers above X, `I`, memory and
everything but `pc` unchanged (42_index_and_memory section 4; decisions D8, D26). -/
def Obligations.BlockLoadFillsRegisters : Prop :=
  ∀ (x : Reg) (s : State), s.i.toNat + x.val ≤ 4095 → ∃ t, exec (.ldVxMem x) s = .next t ∧
    (∀ k : Reg, k.val ≤ x.val → t.getV k = Memory.read s.mem (s.i.toNat + k.val)) ∧
    (∀ k : Reg, x.val < k.val → t.getV k = s.getV k) ∧
    t.pc = s.pc + 2 ∧ { t with v := s.v, pc := s.pc } = s

/-- A memory instruction whose range exceeds 4095 takes MemoryOutOfRange before any access: no byte,
register or cell is changed, only the latch and the record (20_memory section 3; decisions D8, D18). -/
def Obligations.MemoryRangeFaultsAreTaken : Prop :=
  ∀ (x y : Reg) (n : Nibble) (s : State),
    (s.i.toNat + 2 > 4095 → ∃ w : Word, w.toNat = 0xF033 + x.val * 256 ∧ exec (.ldBVx x) s =
      .next { s with halted := true, fault := some ⟨.memoryOutOfRange, some s.pc, some w, none⟩ }) ∧
    (s.i.toNat + x.val > 4095 → ∃ w : Word, w.toNat = 0xF055 + x.val * 256 ∧ exec (.ldMemVx x) s =
      .next { s with halted := true, fault := some ⟨.memoryOutOfRange, some s.pc, some w, none⟩ }) ∧
    (s.i.toNat + x.val > 4095 → ∃ w : Word, w.toNat = 0xF065 + x.val * 256 ∧ exec (.ldVxMem x) s =
      .next { s with halted := true, fault := some ⟨.memoryOutOfRange, some s.pc, some w, none⟩ }) ∧
    (1 ≤ n.toNat → s.i.toNat + n.toNat - 1 > 4095 → ∃ w : Word,
      w.toNat = 0xD000 + x.val * 256 + y.val * 16 + n.toNat ∧ exec (.drwVxVyN x y n) s =
      .next { s with halted := true, fault := some ⟨.memoryOutOfRange, some s.pc, some w, none⟩ })

/-- A block stored and loaded again at the same `I` gives the registers back, whatever the register file held
in between (42_index_and_memory sections 3 and 4; 20_memory section 5, derived there). -/
def Obligations.BlockStoreThenLoadRestores : Prop :=
  ∀ (x : Reg) (s : State) (v : Vector Byte 16), s.i.toNat + x.val ≤ 4095 →
    ∃ t, exec (.ldMemVx x) s = .next t ∧ ∃ u, exec (.ldVxMem x) { t with v := v } = .next u ∧
      (∀ k : Reg, k.val ≤ x.val → u.getV k = s.getV k) ∧
      (∀ k : Reg, x.val < k.val → u.getV k = v.get k)

/-- A store is seen by the very next fetch, byte by byte (20_memory section 9, derived there; that the stores
need `I` within these bounds is decision D8). After LD [I],Vx and after LD B,Vx a fetch at any `p`, the
`pc` the store leaves among them, gives as its first byte what was stored at `p`, if anything was, and as
its second what was stored at `p + 1`, if anything was. -/
def Obligations.StoredBytesAreFetched : Prop :=
  ∀ (x : Reg) (s : State) (p : Word), p.toNat ≤ 4094 →
    (s.i.toNat + x.val ≤ 4095 → ∃ t, exec (.ldMemVx x) s = .next t ∧
      ∃ w, ({ t with pc := p } : State).fetchWord = some w ∧ ∀ k : Reg, k.val ≤ x.val →
        (p.toNat = s.i.toNat + k.val → w.toNat / 256 = (s.getV k).toNat) ∧
        (p.toNat + 1 = s.i.toNat + k.val → w.toNat % 256 = (s.getV k).toNat)) ∧
    (s.i.toNat + 2 ≤ 4095 → ∃ t, exec (.ldBVx x) s = .next t ∧
      ∃ w, ({ t with pc := p } : State).fetchWord = some w ∧
        (p.toNat = s.i.toNat → w.toNat / 256 = (s.getV x).toNat / 100) ∧
        (p.toNat = s.i.toNat + 1 → w.toNat / 256 = (s.getV x).toNat / 10 % 10) ∧
        (p.toNat = s.i.toNat + 2 → w.toNat / 256 = (s.getV x).toNat % 10) ∧
        (p.toNat + 1 = s.i.toNat → w.toNat % 256 = (s.getV x).toNat / 100) ∧
        (p.toNat + 1 = s.i.toNat + 1 → w.toNat % 256 = (s.getV x).toNat / 10 % 10) ∧
        (p.toNat + 1 = s.i.toNat + 2 → w.toNat % 256 = (s.getV x).toNat % 10))

/-! Display. -/

/-- R160: every cell 0, `draw_pending` set also on an empty screen; VF and everything else but `pc`
unchanged. -/
def Obligations.ClearScreen : Prop :=
  ∀ s : State, ∃ t, exec .cls s = .next t ∧ (∀ p, t.pixel p = false) ∧ t.drawPending = true ∧
    t.pc = s.pc + 2 ∧ { t with fb := s.fb, drawPending := s.drawPending, pc := s.pc } = s

/-- DRW within memory, or with N = 0 for any `I`: a cell is flipped exactly when a set sprite bit lands on
it; VF is 1 exactly when such a cell held 1 before; coordinates from before VF is written; `draw_pending`
set; the rest unchanged (43_display section 2; decisions D6, D8, D16). -/
def Obligations.DrawXorsSprite : Prop :=
  ∀ (x y : Reg) (n : Nibble) (s : State), (n.toNat = 0 ∨ s.i.toNat + n.toNat - 1 ≤ 4095) →
    ∃ t, exec (.drwVxVyN x y n) s = .next t ∧
      (∀ q, s.SpriteLights x y n q → t.pixel q = !s.pixel q) ∧
      (∀ q, ¬ s.SpriteLights x y n q → t.pixel q = s.pixel q) ∧
      ((∃ q, s.SpriteLights x y n q ∧ s.pixel q = true) → t.getV 15 = 1) ∧
      ((∀ q, s.SpriteLights x y n q → s.pixel q = false) → t.getV 15 = 0) ∧
      (∀ z, z ≠ 15 → t.getV z = s.getV z) ∧ t.drawPending = true ∧ t.pc = s.pc + 2 ∧
      { t with v := s.v, fb := s.fb, drawPending := s.drawPending, pc := s.pc } = s

/-- The same sprite drawn twice at the same location restores the screen, and the second draw reports a
collision wherever the first set a cell (95_test_vectors S5). The registers are put back in between, since
VF may be a coordinate. -/
def Obligations.DrawTwiceRestoresScreen : Prop :=
  ∀ (x y : Reg) (n : Nibble) (s : State), (n.toNat = 0 ∨ s.i.toNat + n.toNat - 1 ≤ 4095) →
    ∃ t, exec (.drwVxVyN x y n) s = .next t ∧
      ∃ u, exec (.drwVxVyN x y n) { t with v := s.v } = .next u ∧ u.fb = s.fb ∧
        ((∃ q, s.SpriteLights x y n q ∧ s.pixel q = false) → u.getV 15 = 1)

/-! Keypad and timers. -/

/-- SKP and SKNP with Vx a key number: `pc + 4` if the key is, or is not, held, else `pc + 2`; nothing else
changes (44_keypad_and_timers section 2; that a larger Vx is another case is decision D10). -/
def Obligations.KeySkips : Prop :=
  ∀ (x : Reg) (k : Key) (s : State), (s.getV x).toNat = k.val →
    (∃ t, exec (.skpVx x) s = .next t ∧ { t with pc := s.pc } = s ∧
      t.pc = s.pc + BitVec.ofNat 16 (if s.held k = true then 4 else 2)) ∧
    (∃ t, exec (.sknpVx x) s = .next t ∧ { t with pc := s.pc } = s ∧
      t.pc = s.pc + BitVec.ofNat 16 (if s.held k = true then 2 else 4))

/-- SKP and SKNP with Vx above 15 take KeyIndexOutOfRange, unmasked: only the latch and the record change
(44_keypad_and_timers section 1; decisions D10, D18). -/
def Obligations.KeyIndexFaultsAreTaken : Prop :=
  ∀ (x : Reg) (s : State), 15 < (s.getV x).toNat →
    (∃ w : Word, w.toNat = 0xE09E + x.val * 256 ∧ exec (.skpVx x) s =
      .next { s with halted := true, fault := some ⟨.keyIndexOutOfRange, some s.pc, some w, none⟩ }) ∧
    (∃ w : Word, w.toNat = 0xE0A1 + x.val * 256 ∧ exec (.sknpVx x) s =
      .next { s with halted := true, fault := some ⟨.keyIndexOutOfRange, some s.pc, some w, none⟩ })

/-- LD Vx,K: with no key held the handler changes nothing, `pc` included; with a key held, released or not
(decision D29), Vx becomes the lowest held key and `pc` advances by 2; no other register and nothing else
changes (44_keypad_and_timers section 4). -/
def Obligations.WaitForKeyTakesLowest : Prop :=
  ∀ (x : Reg) (s : State),
    ((∀ k, s.held k = false) → exec (.ldVxK x) s = .next s) ∧
    ∀ k, s.held k = true → (∀ j : Key, j.val < k.val → s.held j = false) →
      ∃ t, exec (.ldVxK x) s = .next t ∧ (t.getV x).toNat = k.val ∧ (∀ z, z ≠ x → t.getV z = s.getV z) ∧
        t.pc = s.pc + 2 ∧ { t with v := s.v, pc := s.pc } = s

/-- R172, R174, R175: Vx becomes `DT`; `DT`, `ST` become Vx, `tick` untouched and no signal of their own; the
rest but `pc` unchanged. -/
def Obligations.TimerTransfers : Prop :=
  ∀ (x : Reg) (s : State),
    (∃ t, exec (.ldVxDT x) s = .next t ∧ t.getV x = s.dt ∧ (∀ z, z ≠ x → t.getV z = s.getV z) ∧
      t.pc = s.pc + 2 ∧ { t with v := s.v, pc := s.pc } = s) ∧
    (∃ t, exec (.ldDTVx x) s = .next t ∧ t.dt = s.getV x ∧ t.pc = s.pc + 2 ∧
      { t with dt := s.dt, pc := s.pc } = s) ∧
    (∃ t, exec (.ldSTVx x) s = .next t ∧ t.st = s.getV x ∧ t.pc = s.pc + 2 ∧
      { t with st := s.st, pc := s.pc } = s)

/-! Completion of RET beside `ReturnPopsAddress`. -/

/-- RET completes wherever an address is stacked, from every state with `sp` not 0: it does not halt the CORE,
`pc` is the top slot, `sp` one less, everything else is unchanged (40_control_transfer section 2; that
`sp` = 0 is another case is decision D7). -/
def Obligations.ReturnCompletes : Prop :=
  ∀ s : State, s.sp.val ≠ 0 → ∃ t, exec .ret s = .next t ∧ t.halted = s.halted ∧ t.fault = s.fault ∧
    t.sp.val + 1 = s.sp.val ∧ (∀ j : Fin 16, j.val = t.sp.val → t.pc = s.stack.get j) ∧
    { t with pc := s.pc, sp := s.sp } = s
end

