-- ==== Sys2Proof/Laws/Decode.lean ====
section
/-! SUPPORT. The fields of a packed word. -/
namespace Sys2Proof

theorem toNat_packA (f : Nibble) (nnn : Addr) : (packA f nnn).toNat = f.toNat * 4096 + nnn.toNat := by
  have := nnn.isLt
  simp only [packA, BitVec.toNat_append]
  rw [← Nat.shiftLeft_add_eq_or_of_lt this, Nat.shiftLeft_eq]

theorem toNat_packXK (f : Nibble) (x : Reg) (kk : Byte) :
    (packXK f x kk).toNat = f.toNat * 4096 + x.val * 256 + kk.toNat := by
  have h1 := x.isLt
  have h2 := kk.isLt
  simp only [packXK, BitVec.toNat_append]
  rw [← Nat.shiftLeft_add_eq_or_of_lt h2, ← Nat.shiftLeft_add_eq_or_of_lt (by simp)]
  simp only [Nat.shiftLeft_eq, BitVec.toNat_ofFin]
  omega

theorem toNat_packXYN (f : Nibble) (x y : Reg) (n : Nibble) :
    (packXYN f x y n).toNat = f.toNat * 4096 + x.val * 256 + y.val * 16 + n.toNat := by
  have h1 := x.isLt
  have h2 := y.isLt
  have h3 := n.isLt
  simp only [packXYN, BitVec.toNat_append]
  rw [← Nat.shiftLeft_add_eq_or_of_lt h3, ← Nat.shiftLeft_add_eq_or_of_lt (by simp),
    ← Nat.shiftLeft_add_eq_or_of_lt (by simp)]
  simp only [Nat.shiftLeft_eq, BitVec.toNat_ofFin]
  omega

theorem toNat_wordOfBytes (hi lo : Byte) : (wordOfBytes hi lo).toNat = hi.toNat * 256 + lo.toNat := by
  have := lo.isLt
  simp only [wordOfBytes, BitVec.toNat_append]
  rw [← Nat.shiftLeft_add_eq_or_of_lt this, Nat.shiftLeft_eq]

theorem toNat_fieldFamily (w : Word) : (fieldFamily w).toNat = w.toNat / 4096 := by
  have := w.isLt
  simp only [fieldFamily, BitVec.extractLsb'_toNat, Nat.shiftRight_eq_div_pow]
  omega

theorem val_fieldX (w : Word) : (fieldX w).val = w.toNat / 256 % 16 := by
  show (w.extractLsb' 8 4).toNat = _
  simp only [BitVec.extractLsb'_toNat, Nat.shiftRight_eq_div_pow]

theorem val_fieldY (w : Word) : (fieldY w).val = w.toNat / 16 % 16 := by
  show (w.extractLsb' 4 4).toNat = _
  simp only [BitVec.extractLsb'_toNat, Nat.shiftRight_eq_div_pow]

theorem toNat_fieldN (w : Word) : (fieldN w).toNat = w.toNat % 16 := by
  simp only [fieldN, BitVec.extractLsb'_toNat, Nat.shiftRight_eq_div_pow]
  omega

theorem toNat_fieldKK (w : Word) : (fieldKK w).toNat = w.toNat % 256 := by
  simp only [fieldKK, BitVec.extractLsb'_toNat, Nat.shiftRight_eq_div_pow]
  omega

theorem toNat_fieldNNN (w : Word) : (fieldNNN w).toNat = w.toNat % 4096 := by
  simp only [fieldNNN, BitVec.extractLsb'_toNat, Nat.shiftRight_eq_div_pow]
  omega

/-- The bytes of a word, in memory's order, give the word back (R42). -/
theorem wordOfBytes_hi_lo (w : Word) : wordOfBytes (hiByte w) (loByte w) = w := by
  apply BitVec.eq_of_toNat_eq
  have := w.isLt
  simp only [toNat_wordOfBytes, hiByte, loByte, BitVec.extractLsb'_toNat, Nat.shiftRight_eq_div_pow]
  omega

/-! What each field of a packed word holds. -/

@[simp] theorem fieldFamily_packA (f : Nibble) (nnn : Addr) : fieldFamily (packA f nnn) = f := by
  have := nnn.isLt
  exact BitVec.eq_of_toNat_eq (by rw [toNat_fieldFamily, toNat_packA]; omega)

@[simp] theorem fieldNNN_packA (f : Nibble) (nnn : Addr) : fieldNNN (packA f nnn) = nnn := by
  have := nnn.isLt
  exact BitVec.eq_of_toNat_eq (by rw [toNat_fieldNNN, toNat_packA]; omega)

@[simp] theorem fieldFamily_packXK (f : Nibble) (x : Reg) (kk : Byte) :
    fieldFamily (packXK f x kk) = f := by
  have := x.isLt
  have := kk.isLt
  exact BitVec.eq_of_toNat_eq (by rw [toNat_fieldFamily, toNat_packXK]; omega)

@[simp] theorem fieldX_packXK (f : Nibble) (x : Reg) (kk : Byte) : fieldX (packXK f x kk) = x := by
  have := x.isLt
  have := kk.isLt
  exact Fin.ext (by rw [val_fieldX, toNat_packXK]; omega)

@[simp] theorem fieldKK_packXK (f : Nibble) (x : Reg) (kk : Byte) : fieldKK (packXK f x kk) = kk := by
  have := x.isLt
  have := kk.isLt
  exact BitVec.eq_of_toNat_eq (by rw [toNat_fieldKK, toNat_packXK]; omega)

@[simp] theorem fieldFamily_packXYN (f : Nibble) (x y : Reg) (n : Nibble) :
    fieldFamily (packXYN f x y n) = f := by
  have := x.isLt
  have := y.isLt
  have := n.isLt
  exact BitVec.eq_of_toNat_eq (by rw [toNat_fieldFamily, toNat_packXYN]; omega)

@[simp] theorem fieldX_packXYN (f : Nibble) (x y : Reg) (n : Nibble) : fieldX (packXYN f x y n) = x := by
  have := x.isLt
  have := y.isLt
  have := n.isLt
  exact Fin.ext (by rw [val_fieldX, toNat_packXYN]; omega)

@[simp] theorem fieldY_packXYN (f : Nibble) (x y : Reg) (n : Nibble) : fieldY (packXYN f x y n) = y := by
  have := x.isLt
  have := y.isLt
  have := n.isLt
  exact Fin.ext (by rw [val_fieldY, toNat_packXYN]; omega)

@[simp] theorem fieldN_packXYN (f : Nibble) (x y : Reg) (n : Nibble) : fieldN (packXYN f x y n) = n := by
  have := x.isLt
  have := y.isLt
  have := n.isLt
  exact BitVec.eq_of_toNat_eq (by rw [toNat_fieldN, toNat_packXYN]; omega)

end Sys2Proof
end

