-- ==== Sys2Proof/Laws/Memory.lean ====
section
/-! SUPPORT. Memory: what a read gives after a write, and that every operation keeps the canonical form. -/
namespace Sys2Proof.Machine

theorem Memory.read_erase (m : Memory) (a k : Nat) :
    Memory.read (Memory.erase m a) k = if k = a then Memory.resetByte a else Memory.read m k := by
  induction m with
  | nil => by_cases h : k = a <;> simp [Memory.erase, Memory.read, h]
  | cons e rest ih =>
    obtain ⟨j, b⟩ := e
    by_cases hj : j = a
    · subst hj
      simp only [Memory.erase, if_true, ih, Memory.read]
      by_cases hk : k = j
      · simp [hk]
      · simp [hk, Ne.symm hk]
    · simp only [Memory.erase, if_neg hj, Memory.read, ih]
      by_cases hk : k = a
      · subst hk; simp [hj]
      · simp [hk]

theorem Memory.read_insert (m : Memory) (a k : Nat) (b : Byte) :
    Memory.read (Memory.insert m a b) k = if k = a then b else Memory.read m k := by
  induction m with
  | nil =>
    by_cases h : k = a
    · simp [Memory.insert, Memory.read, h]
    · simp [Memory.insert, Memory.read, h, Ne.symm h]
  | cons e rest ih =>
    obtain ⟨j, c⟩ := e
    simp only [Memory.insert]
    split
    · by_cases h : k = a
      · simp [Memory.read, h]
      · simp [Memory.read, h, Ne.symm h]
    · split
      · rename_i _ h; subst h
        by_cases h : k = a
        · simp [Memory.read, h]
        · simp [Memory.read, h, Ne.symm h]
      · rename_i _ hne
        simp only [Memory.read, ih]
        by_cases h : k = a
        · subst h; simp [Ne.symm hne]
        · simp [h]

/-- A read after a write: the byte written at its address, every other address as before (R48). -/
theorem Memory.read_write (m : Memory) (a k : Nat) (b : Byte) (ha : a < 4096) :
    Memory.read (Memory.write m a b) k = if k = a then b else Memory.read m k := by
  simp only [Memory.write, Config.memSize, if_pos ha]
  split
  · rename_i h; rw [Memory.read_erase, ← h]
  · exact Memory.read_insert m a k b

theorem Memory.read_write_same (m : Memory) (a : Nat) (b : Byte) (ha : a < 4096) :
    Memory.read (Memory.write m a b) a = b := by simp [Memory.read_write m a a b ha]

theorem Memory.read_write_other (m : Memory) (a k : Nat) (b : Byte) (h : k ≠ a) :
    Memory.read (Memory.write m a b) k = Memory.read m k := by
  by_cases ha : a < 4096
  · simp [Memory.read_write m a k b ha, h]
  · simp [Memory.write, Config.memSize, ha]

/-- Reading a byte after writing a run of bytes: the run's byte inside it, as before outside. -/
theorem Memory.read_writeN (bs : List Byte) (m : Memory) (a k : Nat) (h : a + bs.length ≤ 4096) :
    Memory.read (Memory.writeN m a bs) k =
      if a ≤ k ∧ k < a + bs.length then bs.getD (k - a) 0 else Memory.read m k := by
  induction bs generalizing m a with
  | nil =>
    have : ¬ (a ≤ k ∧ k < a) := by omega
    simp [Memory.writeN, this]
  | cons b bs ih =>
    simp only [List.length_cons] at h
    rw [Memory.writeN, ih _ _ (by omega), Memory.read_write m a k b (by omega), List.length_cons]
    by_cases hk : k = a
    · subst hk
      rw [if_neg (by omega), if_pos rfl, if_pos (by omega)]; simp
    · by_cases hin : a + 1 ≤ k ∧ k < a + 1 + bs.length
      · rw [if_pos hin, if_pos (by omega)]
        obtain ⟨d, rfl⟩ : ∃ d, k = a + 1 + d := ⟨k - (a + 1), by omega⟩
        have e : a + 1 + d - a = d + 1 := by omega
        simp [e]
      · rw [if_neg hin, if_neg hk, if_neg (by omega)]

@[simp] theorem Memory.length_readN (m : Memory) (a n : Nat) : (Memory.readN m a n).length = n := by
  induction n generalizing a with
  | zero => rfl
  | succ n ih => simp [Memory.readN, ih]

theorem Memory.getD_readN (m : Memory) (a n k : Nat) (h : k < n) :
    (Memory.readN m a n).getD k 0 = Memory.read m (a + k) := by
  induction n generalizing a k with
  | zero => omega
  | succ n ih =>
    cases k with
    | zero => simp [Memory.readN]
    | succ k =>
      have := ih (a + 1) k (by omega)
      simp only [Memory.readN, List.getD_cons_succ, this]
      congr 1; omega

theorem Memory.wfFrom_mono {lo lo' : Nat} (h : lo' ≤ lo) (m : Memory) (hm : Memory.wfFrom lo m = true) :
    Memory.wfFrom lo' m = true := by
  cases m with
  | nil => rfl
  | cons e rest =>
    obtain ⟨k, b⟩ := e
    simp only [Memory.wfFrom, Bool.and_eq_true, decide_eq_true_eq] at hm ⊢
    obtain ⟨⟨⟨h1, h2⟩, h3⟩, h4⟩ := hm
    exact ⟨⟨⟨by omega, h2⟩, h3⟩, h4⟩

theorem Memory.wfFrom_erase (m : Memory) (lo a : Nat) (hm : Memory.wfFrom lo m = true) :
    Memory.wfFrom lo (Memory.erase m a) = true := by
  induction m generalizing lo with
  | nil => rfl
  | cons e rest ih =>
    obtain ⟨k, b⟩ := e
    simp only [Memory.wfFrom, Bool.and_eq_true, decide_eq_true_eq] at hm
    obtain ⟨⟨⟨h1, h2⟩, h3⟩, h4⟩ := hm
    simp only [Memory.erase]
    split
    · exact ih _ (Memory.wfFrom_mono (by omega) rest h4)
    · simp only [Memory.wfFrom, Bool.and_eq_true, decide_eq_true_eq]
      exact ⟨⟨⟨h1, h2⟩, h3⟩, ih _ h4⟩

theorem Memory.wfFrom_insert (m : Memory) (lo a : Nat) (b : Byte) (hlo : lo ≤ a) (ha : a < 4096)
    (hb : b ≠ Memory.resetByte a) (hm : Memory.wfFrom lo m = true) :
    Memory.wfFrom lo (Memory.insert m a b) = true := by
  induction m generalizing lo with
  | nil => simp [Memory.insert, Memory.wfFrom, Config.memSize, hlo, ha, hb]
  | cons e rest ih =>
    obtain ⟨k, c⟩ := e
    simp only [Memory.wfFrom, Bool.and_eq_true, decide_eq_true_eq] at hm
    obtain ⟨⟨⟨h1, h2⟩, h3⟩, h4⟩ := hm
    simp only [Memory.insert]
    split
    · rename_i hak
      simp only [Memory.wfFrom, Bool.and_eq_true, decide_eq_true_eq, Config.memSize]
      exact ⟨⟨⟨hlo, ha⟩, by simpa using hb⟩, ⟨⟨by omega, h2⟩, h3⟩, h4⟩
    · split
      · rename_i _ hak; subst hak
        simp only [Memory.wfFrom, Bool.and_eq_true, decide_eq_true_eq, Config.memSize]
        exact ⟨⟨⟨h1, ha⟩, by simpa using hb⟩, h4⟩
      · simp only [Memory.wfFrom, Bool.and_eq_true, decide_eq_true_eq]
        exact ⟨⟨⟨h1, h2⟩, h3⟩, ih _ (by omega) h4⟩

/-- A write keeps the canonical form. -/
theorem Memory.wf_write (m : Memory) (a : Nat) (b : Byte) (hm : Memory.wf m = true) :
    Memory.wf (Memory.write m a b) = true := by
  simp only [Memory.write, Config.memSize, Memory.wf] at hm ⊢
  split
  · rename_i ha
    split
    · exact Memory.wfFrom_erase m 0 a hm
    · rename_i hb; exact Memory.wfFrom_insert m 0 a b (Nat.zero_le a) ha hb hm
  · exact hm

/-- A run of writes keeps the canonical form. -/
theorem Memory.wf_writeN (bs : List Byte) (m : Memory) (a : Nat) (hm : Memory.wf m = true) :
    Memory.wf (Memory.writeN m a bs) = true := by
  induction bs generalizing m a with
  | nil => exact hm
  | cons b bs ih => exact ih _ _ (Memory.wf_write m a b hm)

/-- Reset memory is canonical. -/
theorem Memory.wf_reset : Memory.wf State.reset.mem = true := rfl

theorem Memory.read_eq_resetByte_of_lt (m : Memory) (lo a : Nat) (hm : Memory.wfFrom lo m = true)
    (h : a < lo) : Memory.read m a = Memory.resetByte a := by
  induction m generalizing lo with
  | nil => rfl
  | cons e rest ih =>
    obtain ⟨k, b⟩ := e
    simp only [Memory.wfFrom, Bool.and_eq_true, decide_eq_true_eq] at hm
    rw [Memory.read, if_neg (by omega)]
    exact ih (k + 1) hm.2 (by omega)

/-- Canonical memories that read alike everywhere are equal: equal memories are equal data. -/
theorem Memory.wfFrom_ext (m m' : Memory) (lo : Nat) (hm : Memory.wfFrom lo m = true)
    (hm' : Memory.wfFrom lo m' = true) (h : ∀ a, Memory.read m a = Memory.read m' a) : m = m' := by
  induction m generalizing m' lo with
  | nil =>
    cases m' with
    | nil => rfl
    | cons e rest =>
      obtain ⟨k, b⟩ := e
      simp only [Memory.wfFrom, Bool.and_eq_true, decide_eq_true_eq] at hm'
      have := h k
      simp only [Memory.read, if_true] at this
      simp [← this] at hm'
  | cons e rest ih =>
    obtain ⟨k, b⟩ := e
    simp only [Memory.wfFrom, Bool.and_eq_true, decide_eq_true_eq] at hm
    obtain ⟨⟨⟨h1, h2⟩, h3⟩, h4⟩ := hm
    cases m' with
    | nil =>
      have := h k
      simp only [Memory.read, if_true] at this
      simp [this] at h3
    | cons e' rest' =>
      obtain ⟨k', b'⟩ := e'
      simp only [Memory.wfFrom, Bool.and_eq_true, decide_eq_true_eq] at hm'
      obtain ⟨⟨⟨h1', h2'⟩, h3'⟩, h4'⟩ := hm'
      have hkk : k = k' := by
        rcases Nat.lt_trichotomy k k' with hlt | heq | hgt
        · have := h k
          rw [Memory.read, if_pos rfl, Memory.read, if_neg (by omega),
            Memory.read_eq_resetByte_of_lt rest' (k' + 1) k h4' (by omega)] at this
          simp [this] at h3
        · exact heq
        · have := h k'
          rw [Memory.read, if_neg (by omega), Memory.read, if_pos rfl,
            Memory.read_eq_resetByte_of_lt rest (k + 1) k' h4 (by omega)] at this
          simp [← this] at h3'
      subst hkk
      have hb : b = b' := by
        have := h k
        simpa [Memory.read] using this
      subst hb
      have hrest : rest = rest' := by
        refine ih rest' (k + 1) h4 h4' fun a => ?_
        by_cases ha : a ≤ k
        · rw [Memory.read_eq_resetByte_of_lt rest _ a h4 (by omega),
            Memory.read_eq_resetByte_of_lt rest' _ a h4' (by omega)]
        · have := h a
          rwa [Memory.read, if_neg (by omega), Memory.read, if_neg (by omega)] at this
      rw [hrest]

end Sys2Proof.Machine
end

