-- ==== Sys2Proof/Laws/State.lean ====
section
/-! SUPPORT. One lemma per field per named update of State, true by rfl: no later proof unfolds a record
update. -/
namespace Sys2Proof.Machine

variable (s : State)

/-! setV -/

@[simp] theorem State.setV_v (x : Reg) (b : Byte) : (s.setV x b).v = s.v.set x.val b x.isLt := rfl
@[simp] theorem State.setV_i (x : Reg) (b : Byte) : (s.setV x b).i = s.i := rfl
@[simp] theorem State.setV_pc (x : Reg) (b : Byte) : (s.setV x b).pc = s.pc := rfl
@[simp] theorem State.setV_stack (x : Reg) (b : Byte) : (s.setV x b).stack = s.stack := rfl
@[simp] theorem State.setV_sp (x : Reg) (b : Byte) : (s.setV x b).sp = s.sp := rfl
@[simp] theorem State.setV_dt (x : Reg) (b : Byte) : (s.setV x b).dt = s.dt := rfl
@[simp] theorem State.setV_st (x : Reg) (b : Byte) : (s.setV x b).st = s.st := rfl
@[simp] theorem State.setV_mem (x : Reg) (b : Byte) : (s.setV x b).mem = s.mem := rfl
@[simp] theorem State.setV_fb (x : Reg) (b : Byte) : (s.setV x b).fb = s.fb := rfl
@[simp] theorem State.setV_key (x : Reg) (b : Byte) : (s.setV x b).key = s.key := rfl
@[simp] theorem State.setV_drawPending (x : Reg) (b : Byte) : (s.setV x b).drawPending = s.drawPending := rfl
@[simp] theorem State.setV_tick (x : Reg) (b : Byte) : (s.setV x b).tick = s.tick := rfl
@[simp] theorem State.setV_halted (x : Reg) (b : Byte) : (s.setV x b).halted = s.halted := rfl
@[simp] theorem State.setV_fault (x : Reg) (b : Byte) : (s.setV x b).fault = s.fault := rfl
@[simp] theorem State.setV_draws (x : Reg) (b : Byte) : (s.setV x b).draws = s.draws := rfl
@[simp] theorem State.setV_soundStops (x : Reg) (b : Byte) : (s.setV x b).soundStops = s.soundStops := rfl

/-! setRegs -/

@[simp] theorem State.setRegs_v (v : Vector Byte 16) : (s.setRegs v).v = v := rfl
@[simp] theorem State.setRegs_i (v : Vector Byte 16) : (s.setRegs v).i = s.i := rfl
@[simp] theorem State.setRegs_pc (v : Vector Byte 16) : (s.setRegs v).pc = s.pc := rfl
@[simp] theorem State.setRegs_stack (v : Vector Byte 16) : (s.setRegs v).stack = s.stack := rfl
@[simp] theorem State.setRegs_sp (v : Vector Byte 16) : (s.setRegs v).sp = s.sp := rfl
@[simp] theorem State.setRegs_dt (v : Vector Byte 16) : (s.setRegs v).dt = s.dt := rfl
@[simp] theorem State.setRegs_st (v : Vector Byte 16) : (s.setRegs v).st = s.st := rfl
@[simp] theorem State.setRegs_mem (v : Vector Byte 16) : (s.setRegs v).mem = s.mem := rfl
@[simp] theorem State.setRegs_fb (v : Vector Byte 16) : (s.setRegs v).fb = s.fb := rfl
@[simp] theorem State.setRegs_key (v : Vector Byte 16) : (s.setRegs v).key = s.key := rfl
@[simp] theorem State.setRegs_drawPending (v : Vector Byte 16) : (s.setRegs v).drawPending = s.drawPending := rfl
@[simp] theorem State.setRegs_tick (v : Vector Byte 16) : (s.setRegs v).tick = s.tick := rfl
@[simp] theorem State.setRegs_halted (v : Vector Byte 16) : (s.setRegs v).halted = s.halted := rfl
@[simp] theorem State.setRegs_fault (v : Vector Byte 16) : (s.setRegs v).fault = s.fault := rfl
@[simp] theorem State.setRegs_draws (v : Vector Byte 16) : (s.setRegs v).draws = s.draws := rfl
@[simp] theorem State.setRegs_soundStops (v : Vector Byte 16) : (s.setRegs v).soundStops = s.soundStops := rfl

/-! setI -/

@[simp] theorem State.setI_v (w : Word) : (s.setI w).v = s.v := rfl
@[simp] theorem State.setI_i (w : Word) : (s.setI w).i = w := rfl
@[simp] theorem State.setI_pc (w : Word) : (s.setI w).pc = s.pc := rfl
@[simp] theorem State.setI_stack (w : Word) : (s.setI w).stack = s.stack := rfl
@[simp] theorem State.setI_sp (w : Word) : (s.setI w).sp = s.sp := rfl
@[simp] theorem State.setI_dt (w : Word) : (s.setI w).dt = s.dt := rfl
@[simp] theorem State.setI_st (w : Word) : (s.setI w).st = s.st := rfl
@[simp] theorem State.setI_mem (w : Word) : (s.setI w).mem = s.mem := rfl
@[simp] theorem State.setI_fb (w : Word) : (s.setI w).fb = s.fb := rfl
@[simp] theorem State.setI_key (w : Word) : (s.setI w).key = s.key := rfl
@[simp] theorem State.setI_drawPending (w : Word) : (s.setI w).drawPending = s.drawPending := rfl
@[simp] theorem State.setI_tick (w : Word) : (s.setI w).tick = s.tick := rfl
@[simp] theorem State.setI_halted (w : Word) : (s.setI w).halted = s.halted := rfl
@[simp] theorem State.setI_fault (w : Word) : (s.setI w).fault = s.fault := rfl
@[simp] theorem State.setI_draws (w : Word) : (s.setI w).draws = s.draws := rfl
@[simp] theorem State.setI_soundStops (w : Word) : (s.setI w).soundStops = s.soundStops := rfl

/-! setDT -/

@[simp] theorem State.setDT_v (b : Byte) : (s.setDT b).v = s.v := rfl
@[simp] theorem State.setDT_i (b : Byte) : (s.setDT b).i = s.i := rfl
@[simp] theorem State.setDT_pc (b : Byte) : (s.setDT b).pc = s.pc := rfl
@[simp] theorem State.setDT_stack (b : Byte) : (s.setDT b).stack = s.stack := rfl
@[simp] theorem State.setDT_sp (b : Byte) : (s.setDT b).sp = s.sp := rfl
@[simp] theorem State.setDT_dt (b : Byte) : (s.setDT b).dt = b := rfl
@[simp] theorem State.setDT_st (b : Byte) : (s.setDT b).st = s.st := rfl
@[simp] theorem State.setDT_mem (b : Byte) : (s.setDT b).mem = s.mem := rfl
@[simp] theorem State.setDT_fb (b : Byte) : (s.setDT b).fb = s.fb := rfl
@[simp] theorem State.setDT_key (b : Byte) : (s.setDT b).key = s.key := rfl
@[simp] theorem State.setDT_drawPending (b : Byte) : (s.setDT b).drawPending = s.drawPending := rfl
@[simp] theorem State.setDT_tick (b : Byte) : (s.setDT b).tick = s.tick := rfl
@[simp] theorem State.setDT_halted (b : Byte) : (s.setDT b).halted = s.halted := rfl
@[simp] theorem State.setDT_fault (b : Byte) : (s.setDT b).fault = s.fault := rfl
@[simp] theorem State.setDT_draws (b : Byte) : (s.setDT b).draws = s.draws := rfl
@[simp] theorem State.setDT_soundStops (b : Byte) : (s.setDT b).soundStops = s.soundStops := rfl

/-! setST -/

@[simp] theorem State.setST_v (b : Byte) : (s.setST b).v = s.v := rfl
@[simp] theorem State.setST_i (b : Byte) : (s.setST b).i = s.i := rfl
@[simp] theorem State.setST_pc (b : Byte) : (s.setST b).pc = s.pc := rfl
@[simp] theorem State.setST_stack (b : Byte) : (s.setST b).stack = s.stack := rfl
@[simp] theorem State.setST_sp (b : Byte) : (s.setST b).sp = s.sp := rfl
@[simp] theorem State.setST_dt (b : Byte) : (s.setST b).dt = s.dt := rfl
@[simp] theorem State.setST_st (b : Byte) : (s.setST b).st = b := rfl
@[simp] theorem State.setST_mem (b : Byte) : (s.setST b).mem = s.mem := rfl
@[simp] theorem State.setST_fb (b : Byte) : (s.setST b).fb = s.fb := rfl
@[simp] theorem State.setST_key (b : Byte) : (s.setST b).key = s.key := rfl
@[simp] theorem State.setST_drawPending (b : Byte) : (s.setST b).drawPending = s.drawPending := rfl
@[simp] theorem State.setST_tick (b : Byte) : (s.setST b).tick = s.tick := rfl
@[simp] theorem State.setST_halted (b : Byte) : (s.setST b).halted = s.halted := rfl
@[simp] theorem State.setST_fault (b : Byte) : (s.setST b).fault = s.fault := rfl
@[simp] theorem State.setST_draws (b : Byte) : (s.setST b).draws = s.draws := rfl
@[simp] theorem State.setST_soundStops (b : Byte) : (s.setST b).soundStops = s.soundStops := rfl

/-! setKey -/

@[simp] theorem State.setKey_v (k : Key) (h : Bool) : (s.setKey k h).v = s.v := rfl
@[simp] theorem State.setKey_i (k : Key) (h : Bool) : (s.setKey k h).i = s.i := rfl
@[simp] theorem State.setKey_pc (k : Key) (h : Bool) : (s.setKey k h).pc = s.pc := rfl
@[simp] theorem State.setKey_stack (k : Key) (h : Bool) : (s.setKey k h).stack = s.stack := rfl
@[simp] theorem State.setKey_sp (k : Key) (h : Bool) : (s.setKey k h).sp = s.sp := rfl
@[simp] theorem State.setKey_dt (k : Key) (h : Bool) : (s.setKey k h).dt = s.dt := rfl
@[simp] theorem State.setKey_st (k : Key) (h : Bool) : (s.setKey k h).st = s.st := rfl
@[simp] theorem State.setKey_mem (k : Key) (h : Bool) : (s.setKey k h).mem = s.mem := rfl
@[simp] theorem State.setKey_fb (k : Key) (h : Bool) : (s.setKey k h).fb = s.fb := rfl
@[simp] theorem State.setKey_key (k : Key) (h : Bool) : (s.setKey k h).key = s.key.set k.val h k.isLt := rfl
@[simp] theorem State.setKey_drawPending (k : Key) (h : Bool) : (s.setKey k h).drawPending = s.drawPending := rfl
@[simp] theorem State.setKey_tick (k : Key) (h : Bool) : (s.setKey k h).tick = s.tick := rfl
@[simp] theorem State.setKey_halted (k : Key) (h : Bool) : (s.setKey k h).halted = s.halted := rfl
@[simp] theorem State.setKey_fault (k : Key) (h : Bool) : (s.setKey k h).fault = s.fault := rfl
@[simp] theorem State.setKey_draws (k : Key) (h : Bool) : (s.setKey k h).draws = s.draws := rfl
@[simp] theorem State.setKey_soundStops (k : Key) (h : Bool) : (s.setKey k h).soundStops = s.soundStops := rfl

/-! setDrawPending -/

@[simp] theorem State.setDrawPending_v (b : Bool) : (s.setDrawPending b).v = s.v := rfl
@[simp] theorem State.setDrawPending_i (b : Bool) : (s.setDrawPending b).i = s.i := rfl
@[simp] theorem State.setDrawPending_pc (b : Bool) : (s.setDrawPending b).pc = s.pc := rfl
@[simp] theorem State.setDrawPending_stack (b : Bool) : (s.setDrawPending b).stack = s.stack := rfl
@[simp] theorem State.setDrawPending_sp (b : Bool) : (s.setDrawPending b).sp = s.sp := rfl
@[simp] theorem State.setDrawPending_dt (b : Bool) : (s.setDrawPending b).dt = s.dt := rfl
@[simp] theorem State.setDrawPending_st (b : Bool) : (s.setDrawPending b).st = s.st := rfl
@[simp] theorem State.setDrawPending_mem (b : Bool) : (s.setDrawPending b).mem = s.mem := rfl
@[simp] theorem State.setDrawPending_fb (b : Bool) : (s.setDrawPending b).fb = s.fb := rfl
@[simp] theorem State.setDrawPending_key (b : Bool) : (s.setDrawPending b).key = s.key := rfl
@[simp] theorem State.setDrawPending_drawPending (b : Bool) : (s.setDrawPending b).drawPending = b := rfl
@[simp] theorem State.setDrawPending_tick (b : Bool) : (s.setDrawPending b).tick = s.tick := rfl
@[simp] theorem State.setDrawPending_halted (b : Bool) : (s.setDrawPending b).halted = s.halted := rfl
@[simp] theorem State.setDrawPending_fault (b : Bool) : (s.setDrawPending b).fault = s.fault := rfl
@[simp] theorem State.setDrawPending_draws (b : Bool) : (s.setDrawPending b).draws = s.draws := rfl
@[simp] theorem State.setDrawPending_soundStops (b : Bool) : (s.setDrawPending b).soundStops = s.soundStops := rfl

/-! setFb -/

@[simp] theorem State.setFb_v (f : BitVec 2048) : (s.setFb f).v = s.v := rfl
@[simp] theorem State.setFb_i (f : BitVec 2048) : (s.setFb f).i = s.i := rfl
@[simp] theorem State.setFb_pc (f : BitVec 2048) : (s.setFb f).pc = s.pc := rfl
@[simp] theorem State.setFb_stack (f : BitVec 2048) : (s.setFb f).stack = s.stack := rfl
@[simp] theorem State.setFb_sp (f : BitVec 2048) : (s.setFb f).sp = s.sp := rfl
@[simp] theorem State.setFb_dt (f : BitVec 2048) : (s.setFb f).dt = s.dt := rfl
@[simp] theorem State.setFb_st (f : BitVec 2048) : (s.setFb f).st = s.st := rfl
@[simp] theorem State.setFb_mem (f : BitVec 2048) : (s.setFb f).mem = s.mem := rfl
@[simp] theorem State.setFb_fb (f : BitVec 2048) : (s.setFb f).fb = f := rfl
@[simp] theorem State.setFb_key (f : BitVec 2048) : (s.setFb f).key = s.key := rfl
@[simp] theorem State.setFb_drawPending (f : BitVec 2048) : (s.setFb f).drawPending = s.drawPending := rfl
@[simp] theorem State.setFb_tick (f : BitVec 2048) : (s.setFb f).tick = s.tick := rfl
@[simp] theorem State.setFb_halted (f : BitVec 2048) : (s.setFb f).halted = s.halted := rfl
@[simp] theorem State.setFb_fault (f : BitVec 2048) : (s.setFb f).fault = s.fault := rfl
@[simp] theorem State.setFb_draws (f : BitVec 2048) : (s.setFb f).draws = s.draws := rfl
@[simp] theorem State.setFb_soundStops (f : BitVec 2048) : (s.setFb f).soundStops = s.soundStops := rfl

/-! setMem -/

@[simp] theorem State.setMem_v (m : Memory) : (s.setMem m).v = s.v := rfl
@[simp] theorem State.setMem_i (m : Memory) : (s.setMem m).i = s.i := rfl
@[simp] theorem State.setMem_pc (m : Memory) : (s.setMem m).pc = s.pc := rfl
@[simp] theorem State.setMem_stack (m : Memory) : (s.setMem m).stack = s.stack := rfl
@[simp] theorem State.setMem_sp (m : Memory) : (s.setMem m).sp = s.sp := rfl
@[simp] theorem State.setMem_dt (m : Memory) : (s.setMem m).dt = s.dt := rfl
@[simp] theorem State.setMem_st (m : Memory) : (s.setMem m).st = s.st := rfl
@[simp] theorem State.setMem_mem (m : Memory) : (s.setMem m).mem = m := rfl
@[simp] theorem State.setMem_fb (m : Memory) : (s.setMem m).fb = s.fb := rfl
@[simp] theorem State.setMem_key (m : Memory) : (s.setMem m).key = s.key := rfl
@[simp] theorem State.setMem_drawPending (m : Memory) : (s.setMem m).drawPending = s.drawPending := rfl
@[simp] theorem State.setMem_tick (m : Memory) : (s.setMem m).tick = s.tick := rfl
@[simp] theorem State.setMem_halted (m : Memory) : (s.setMem m).halted = s.halted := rfl
@[simp] theorem State.setMem_fault (m : Memory) : (s.setMem m).fault = s.fault := rfl
@[simp] theorem State.setMem_draws (m : Memory) : (s.setMem m).draws = s.draws := rfl
@[simp] theorem State.setMem_soundStops (m : Memory) : (s.setMem m).soundStops = s.soundStops := rfl

/-! setPc -/

@[simp] theorem State.setPc_v (w : Word) : (s.setPc w).v = s.v := rfl
@[simp] theorem State.setPc_i (w : Word) : (s.setPc w).i = s.i := rfl
@[simp] theorem State.setPc_pc (w : Word) : (s.setPc w).pc = w := rfl
@[simp] theorem State.setPc_stack (w : Word) : (s.setPc w).stack = s.stack := rfl
@[simp] theorem State.setPc_sp (w : Word) : (s.setPc w).sp = s.sp := rfl
@[simp] theorem State.setPc_dt (w : Word) : (s.setPc w).dt = s.dt := rfl
@[simp] theorem State.setPc_st (w : Word) : (s.setPc w).st = s.st := rfl
@[simp] theorem State.setPc_mem (w : Word) : (s.setPc w).mem = s.mem := rfl
@[simp] theorem State.setPc_fb (w : Word) : (s.setPc w).fb = s.fb := rfl
@[simp] theorem State.setPc_key (w : Word) : (s.setPc w).key = s.key := rfl
@[simp] theorem State.setPc_drawPending (w : Word) : (s.setPc w).drawPending = s.drawPending := rfl
@[simp] theorem State.setPc_tick (w : Word) : (s.setPc w).tick = s.tick := rfl
@[simp] theorem State.setPc_halted (w : Word) : (s.setPc w).halted = s.halted := rfl
@[simp] theorem State.setPc_fault (w : Word) : (s.setPc w).fault = s.fault := rfl
@[simp] theorem State.setPc_draws (w : Word) : (s.setPc w).draws = s.draws := rfl
@[simp] theorem State.setPc_soundStops (w : Word) : (s.setPc w).soundStops = s.soundStops := rfl

/-! advance -/

@[simp] theorem State.advance_v : s.advance.v = s.v := rfl
@[simp] theorem State.advance_i : s.advance.i = s.i := rfl
@[simp] theorem State.advance_pc : s.advance.pc = s.pc + 2 := rfl
@[simp] theorem State.advance_stack : s.advance.stack = s.stack := rfl
@[simp] theorem State.advance_sp : s.advance.sp = s.sp := rfl
@[simp] theorem State.advance_dt : s.advance.dt = s.dt := rfl
@[simp] theorem State.advance_st : s.advance.st = s.st := rfl
@[simp] theorem State.advance_mem : s.advance.mem = s.mem := rfl
@[simp] theorem State.advance_fb : s.advance.fb = s.fb := rfl
@[simp] theorem State.advance_key : s.advance.key = s.key := rfl
@[simp] theorem State.advance_drawPending : s.advance.drawPending = s.drawPending := rfl
@[simp] theorem State.advance_tick : s.advance.tick = s.tick := rfl
@[simp] theorem State.advance_halted : s.advance.halted = s.halted := rfl
@[simp] theorem State.advance_fault : s.advance.fault = s.fault := rfl
@[simp] theorem State.advance_draws : s.advance.draws = s.draws := rfl
@[simp] theorem State.advance_soundStops : s.advance.soundStops = s.soundStops := rfl

/-! skipIf -/

@[simp] theorem State.skipIf_v (c : Bool) : (s.skipIf c).v = s.v := rfl
@[simp] theorem State.skipIf_i (c : Bool) : (s.skipIf c).i = s.i := rfl
@[simp] theorem State.skipIf_pc (c : Bool) : (s.skipIf c).pc = if c then s.pc + 4 else s.pc + 2 := rfl
@[simp] theorem State.skipIf_stack (c : Bool) : (s.skipIf c).stack = s.stack := rfl
@[simp] theorem State.skipIf_sp (c : Bool) : (s.skipIf c).sp = s.sp := rfl
@[simp] theorem State.skipIf_dt (c : Bool) : (s.skipIf c).dt = s.dt := rfl
@[simp] theorem State.skipIf_st (c : Bool) : (s.skipIf c).st = s.st := rfl
@[simp] theorem State.skipIf_mem (c : Bool) : (s.skipIf c).mem = s.mem := rfl
@[simp] theorem State.skipIf_fb (c : Bool) : (s.skipIf c).fb = s.fb := rfl
@[simp] theorem State.skipIf_key (c : Bool) : (s.skipIf c).key = s.key := rfl
@[simp] theorem State.skipIf_drawPending (c : Bool) : (s.skipIf c).drawPending = s.drawPending := rfl
@[simp] theorem State.skipIf_tick (c : Bool) : (s.skipIf c).tick = s.tick := rfl
@[simp] theorem State.skipIf_halted (c : Bool) : (s.skipIf c).halted = s.halted := rfl
@[simp] theorem State.skipIf_fault (c : Bool) : (s.skipIf c).fault = s.fault := rfl
@[simp] theorem State.skipIf_draws (c : Bool) : (s.skipIf c).draws = s.draws := rfl
@[simp] theorem State.skipIf_soundStops (c : Bool) : (s.skipIf c).soundStops = s.soundStops := rfl

/-! halt -/

@[simp] theorem State.halt_v (r : FaultRecord) : (s.halt r).v = s.v := rfl
@[simp] theorem State.halt_i (r : FaultRecord) : (s.halt r).i = s.i := rfl
@[simp] theorem State.halt_pc (r : FaultRecord) : (s.halt r).pc = s.pc := rfl
@[simp] theorem State.halt_stack (r : FaultRecord) : (s.halt r).stack = s.stack := rfl
@[simp] theorem State.halt_sp (r : FaultRecord) : (s.halt r).sp = s.sp := rfl
@[simp] theorem State.halt_dt (r : FaultRecord) : (s.halt r).dt = s.dt := rfl
@[simp] theorem State.halt_st (r : FaultRecord) : (s.halt r).st = s.st := rfl
@[simp] theorem State.halt_mem (r : FaultRecord) : (s.halt r).mem = s.mem := rfl
@[simp] theorem State.halt_fb (r : FaultRecord) : (s.halt r).fb = s.fb := rfl
@[simp] theorem State.halt_key (r : FaultRecord) : (s.halt r).key = s.key := rfl
@[simp] theorem State.halt_drawPending (r : FaultRecord) : (s.halt r).drawPending = s.drawPending := rfl
@[simp] theorem State.halt_tick (r : FaultRecord) : (s.halt r).tick = s.tick := rfl
@[simp] theorem State.halt_halted (r : FaultRecord) : (s.halt r).halted = true := rfl
@[simp] theorem State.halt_fault (r : FaultRecord) : (s.halt r).fault = some r := rfl
@[simp] theorem State.halt_draws (r : FaultRecord) : (s.halt r).draws = s.draws := rfl
@[simp] theorem State.halt_soundStops (r : FaultRecord) : (s.halt r).soundStops = s.soundStops := rfl

/-! raiseFault -/

@[simp] theorem State.raiseFault_v (c : FaultCode) (w : Option Word) : (s.raiseFault c w).v = s.v := rfl
@[simp] theorem State.raiseFault_i (c : FaultCode) (w : Option Word) : (s.raiseFault c w).i = s.i := rfl
@[simp] theorem State.raiseFault_pc (c : FaultCode) (w : Option Word) : (s.raiseFault c w).pc = s.pc := rfl
@[simp] theorem State.raiseFault_stack (c : FaultCode) (w : Option Word) : (s.raiseFault c w).stack = s.stack := rfl
@[simp] theorem State.raiseFault_sp (c : FaultCode) (w : Option Word) : (s.raiseFault c w).sp = s.sp := rfl
@[simp] theorem State.raiseFault_dt (c : FaultCode) (w : Option Word) : (s.raiseFault c w).dt = s.dt := rfl
@[simp] theorem State.raiseFault_st (c : FaultCode) (w : Option Word) : (s.raiseFault c w).st = s.st := rfl
@[simp] theorem State.raiseFault_mem (c : FaultCode) (w : Option Word) : (s.raiseFault c w).mem = s.mem := rfl
@[simp] theorem State.raiseFault_fb (c : FaultCode) (w : Option Word) : (s.raiseFault c w).fb = s.fb := rfl
@[simp] theorem State.raiseFault_key (c : FaultCode) (w : Option Word) : (s.raiseFault c w).key = s.key := rfl
@[simp] theorem State.raiseFault_drawPending (c : FaultCode) (w : Option Word) : (s.raiseFault c w).drawPending = s.drawPending := rfl
@[simp] theorem State.raiseFault_tick (c : FaultCode) (w : Option Word) : (s.raiseFault c w).tick = s.tick := rfl
@[simp] theorem State.raiseFault_halted (c : FaultCode) (w : Option Word) : (s.raiseFault c w).halted = true := rfl
@[simp] theorem State.raiseFault_fault (c : FaultCode) (w : Option Word) : (s.raiseFault c w).fault = some ⟨c, some s.pc, w, none⟩ := rfl
@[simp] theorem State.raiseFault_draws (c : FaultCode) (w : Option Word) : (s.raiseFault c w).draws = s.draws := rfl
@[simp] theorem State.raiseFault_soundStops (c : FaultCode) (w : Option Word) : (s.raiseFault c w).soundStops = s.soundStops := rfl

/-! faultInFetch -/

@[simp] theorem State.faultInFetch_v : s.faultInFetch.v = s.v := rfl
@[simp] theorem State.faultInFetch_i : s.faultInFetch.i = s.i := rfl
@[simp] theorem State.faultInFetch_pc : s.faultInFetch.pc = s.pc := rfl
@[simp] theorem State.faultInFetch_stack : s.faultInFetch.stack = s.stack := rfl
@[simp] theorem State.faultInFetch_sp : s.faultInFetch.sp = s.sp := rfl
@[simp] theorem State.faultInFetch_dt : s.faultInFetch.dt = s.dt := rfl
@[simp] theorem State.faultInFetch_st : s.faultInFetch.st = s.st := rfl
@[simp] theorem State.faultInFetch_mem : s.faultInFetch.mem = s.mem := rfl
@[simp] theorem State.faultInFetch_fb : s.faultInFetch.fb = s.fb := rfl
@[simp] theorem State.faultInFetch_key : s.faultInFetch.key = s.key := rfl
@[simp] theorem State.faultInFetch_drawPending : s.faultInFetch.drawPending = s.drawPending := rfl
@[simp] theorem State.faultInFetch_tick : s.faultInFetch.tick = s.tick := rfl
@[simp] theorem State.faultInFetch_halted : s.faultInFetch.halted = true := rfl
@[simp] theorem State.faultInFetch_fault : s.faultInFetch.fault = some ⟨.fetchOutOfRange, some s.pc, none, none⟩ := rfl
@[simp] theorem State.faultInFetch_draws : s.faultInFetch.draws = s.draws := rfl
@[simp] theorem State.faultInFetch_soundStops : s.faultInFetch.soundStops = s.soundStops := rfl

/-! faultInDecode -/

@[simp] theorem State.faultInDecode_v (w : Word) : (s.faultInDecode w).v = s.v := rfl
@[simp] theorem State.faultInDecode_i (w : Word) : (s.faultInDecode w).i = s.i := rfl
@[simp] theorem State.faultInDecode_pc (w : Word) : (s.faultInDecode w).pc = s.pc := rfl
@[simp] theorem State.faultInDecode_stack (w : Word) : (s.faultInDecode w).stack = s.stack := rfl
@[simp] theorem State.faultInDecode_sp (w : Word) : (s.faultInDecode w).sp = s.sp := rfl
@[simp] theorem State.faultInDecode_dt (w : Word) : (s.faultInDecode w).dt = s.dt := rfl
@[simp] theorem State.faultInDecode_st (w : Word) : (s.faultInDecode w).st = s.st := rfl
@[simp] theorem State.faultInDecode_mem (w : Word) : (s.faultInDecode w).mem = s.mem := rfl
@[simp] theorem State.faultInDecode_fb (w : Word) : (s.faultInDecode w).fb = s.fb := rfl
@[simp] theorem State.faultInDecode_key (w : Word) : (s.faultInDecode w).key = s.key := rfl
@[simp] theorem State.faultInDecode_drawPending (w : Word) : (s.faultInDecode w).drawPending = s.drawPending := rfl
@[simp] theorem State.faultInDecode_tick (w : Word) : (s.faultInDecode w).tick = s.tick := rfl
@[simp] theorem State.faultInDecode_halted (w : Word) : (s.faultInDecode w).halted = true := rfl
@[simp] theorem State.faultInDecode_fault (w : Word) : (s.faultInDecode w).fault = some ⟨.unrecognizedInstruction, some s.pc, some w, none⟩ := rfl
@[simp] theorem State.faultInDecode_draws (w : Word) : (s.faultInDecode w).draws = s.draws := rfl
@[simp] theorem State.faultInDecode_soundStops (w : Word) : (s.faultInDecode w).soundStops = s.soundStops := rfl

/-! emitSoundStop -/

@[simp] theorem State.emitSoundStop_v : s.emitSoundStop.v = s.v := rfl
@[simp] theorem State.emitSoundStop_i : s.emitSoundStop.i = s.i := rfl
@[simp] theorem State.emitSoundStop_pc : s.emitSoundStop.pc = s.pc := rfl
@[simp] theorem State.emitSoundStop_stack : s.emitSoundStop.stack = s.stack := rfl
@[simp] theorem State.emitSoundStop_sp : s.emitSoundStop.sp = s.sp := rfl
@[simp] theorem State.emitSoundStop_dt : s.emitSoundStop.dt = s.dt := rfl
@[simp] theorem State.emitSoundStop_st : s.emitSoundStop.st = s.st := rfl
@[simp] theorem State.emitSoundStop_mem : s.emitSoundStop.mem = s.mem := rfl
@[simp] theorem State.emitSoundStop_fb : s.emitSoundStop.fb = s.fb := rfl
@[simp] theorem State.emitSoundStop_key : s.emitSoundStop.key = s.key := rfl
@[simp] theorem State.emitSoundStop_drawPending : s.emitSoundStop.drawPending = s.drawPending := rfl
@[simp] theorem State.emitSoundStop_tick : s.emitSoundStop.tick = s.tick := rfl
@[simp] theorem State.emitSoundStop_halted : s.emitSoundStop.halted = s.halted := rfl
@[simp] theorem State.emitSoundStop_fault : s.emitSoundStop.fault = s.fault := rfl
@[simp] theorem State.emitSoundStop_draws : s.emitSoundStop.draws = s.draws := rfl
@[simp] theorem State.emitSoundStop_soundStops : s.emitSoundStop.soundStops = s.soundStops + 1 := rfl

/-! setFlagThenV -/

@[simp] theorem State.setFlagThenV_v (c : Bool) (x : Reg) (b : Byte) : (s.setFlagThenV c x b).v = ((s.setV vf (flagByte c)).setV x b).v := rfl
@[simp] theorem State.setFlagThenV_i (c : Bool) (x : Reg) (b : Byte) : (s.setFlagThenV c x b).i = s.i := rfl
@[simp] theorem State.setFlagThenV_pc (c : Bool) (x : Reg) (b : Byte) : (s.setFlagThenV c x b).pc = s.pc := rfl
@[simp] theorem State.setFlagThenV_stack (c : Bool) (x : Reg) (b : Byte) : (s.setFlagThenV c x b).stack = s.stack := rfl
@[simp] theorem State.setFlagThenV_sp (c : Bool) (x : Reg) (b : Byte) : (s.setFlagThenV c x b).sp = s.sp := rfl
@[simp] theorem State.setFlagThenV_dt (c : Bool) (x : Reg) (b : Byte) : (s.setFlagThenV c x b).dt = s.dt := rfl
@[simp] theorem State.setFlagThenV_st (c : Bool) (x : Reg) (b : Byte) : (s.setFlagThenV c x b).st = s.st := rfl
@[simp] theorem State.setFlagThenV_mem (c : Bool) (x : Reg) (b : Byte) : (s.setFlagThenV c x b).mem = s.mem := rfl
@[simp] theorem State.setFlagThenV_fb (c : Bool) (x : Reg) (b : Byte) : (s.setFlagThenV c x b).fb = s.fb := rfl
@[simp] theorem State.setFlagThenV_key (c : Bool) (x : Reg) (b : Byte) : (s.setFlagThenV c x b).key = s.key := rfl
@[simp] theorem State.setFlagThenV_drawPending (c : Bool) (x : Reg) (b : Byte) : (s.setFlagThenV c x b).drawPending = s.drawPending := rfl
@[simp] theorem State.setFlagThenV_tick (c : Bool) (x : Reg) (b : Byte) : (s.setFlagThenV c x b).tick = s.tick := rfl
@[simp] theorem State.setFlagThenV_halted (c : Bool) (x : Reg) (b : Byte) : (s.setFlagThenV c x b).halted = s.halted := rfl
@[simp] theorem State.setFlagThenV_fault (c : Bool) (x : Reg) (b : Byte) : (s.setFlagThenV c x b).fault = s.fault := rfl
@[simp] theorem State.setFlagThenV_draws (c : Bool) (x : Reg) (b : Byte) : (s.setFlagThenV c x b).draws = s.draws := rfl
@[simp] theorem State.setFlagThenV_soundStops (c : Bool) (x : Reg) (b : Byte) : (s.setFlagThenV c x b).soundStops = s.soundStops := rfl

end Sys2Proof.Machine
end

