-- ==== Sys2Proof/Laws/Ops.lean ====
section
/-! SUPPORT. For each shared operation, what it does, said once. -/
namespace Sys2Proof.Machine

/-! Registers. -/

@[simp] theorem State.getV_setV (s : State) (x y : Reg) (b : Byte) :
    (s.setV x b).getV y = if y = x then b else s.getV y := by
  simp only [State.getV, State.setV, Vector.get_eq_getElem, Vector.getElem_set]
  by_cases h : y = x
  · simp [h]
  · have : ¬ x.val = y.val := fun e => h (Fin.ext e.symm)
    simp [h, this]

/-- `getV` reads only the register file. -/
theorem State.getV_congr {s t : State} (h : s.v = t.v) (x : Reg) : s.getV x = t.getV x := by
  simp [State.getV, h]

@[simp] theorem State.getV_setI (s : State) (w : Word) (x : Reg) : (s.setI w).getV x = s.getV x := rfl
@[simp] theorem State.getV_setDT (s : State) (b : Byte) (x : Reg) : (s.setDT b).getV x = s.getV x := rfl
@[simp] theorem State.getV_setST (s : State) (b : Byte) (x : Reg) : (s.setST b).getV x = s.getV x := rfl
@[simp] theorem State.getV_setPc (s : State) (w : Word) (x : Reg) : (s.setPc w).getV x = s.getV x := rfl
@[simp] theorem State.getV_advance (s : State) (x : Reg) : s.advance.getV x = s.getV x := rfl
@[simp] theorem State.getV_skipIf (s : State) (c : Bool) (x : Reg) : (s.skipIf c).getV x = s.getV x := rfl
@[simp] theorem State.getV_setMem (s : State) (m : Memory) (x : Reg) : (s.setMem m).getV x = s.getV x := rfl
@[simp] theorem State.getV_setFb (s : State) (f : BitVec 2048) (x : Reg) : (s.setFb f).getV x = s.getV x := rfl
@[simp] theorem State.getV_setDrawPending (s : State) (b : Bool) (x : Reg) :
    (s.setDrawPending b).getV x = s.getV x := rfl
@[simp] theorem State.getV_setRegs (s : State) (v : Vector Byte 16) (x : Reg) :
    (s.setRegs v).getV x = v.get x := rfl
@[simp] theorem State.getV_halt (s : State) (r : FaultRecord) (x : Reg) : (s.halt r).getV x = s.getV x := rfl

/-- The flag first, then the result: with X = 0xF the result stands (R13). -/
@[simp] theorem State.getV_setFlagThenV (s : State) (c : Bool) (x y : Reg) (b : Byte) :
    (s.setFlagThenV c x b).getV y =
      if y = x then b else if y = vf then flagByte c else s.getV y := by
  simp [State.setFlagThenV]

@[simp] theorem State.held_setKey (s : State) (k j : Key) (h : Bool) :
    (s.setKey k h).held j = if j = k then h else s.held j := by
  simp only [State.held, State.setKey, Vector.get_eq_getElem, Vector.getElem_set]
  by_cases e : j = k
  · simp [e]
  · have : ¬ k.val = j.val := fun e' => e (Fin.ext e'.symm)
    simp [e, this]

/-! The return stack. -/

/-- Everything a push can do. -/
theorem State.push?_eq_some {s t : State} {ret : Word} (h : s.push? ret = some t) :
    ∃ hsp : s.sp.val < 16, t.sp.val = s.sp.val + 1 ∧ t.stack = s.stack.set s.sp.val ret hsp ∧
      { t with sp := s.sp, stack := s.stack } = s := by
  simp only [State.push?] at h
  split at h
  · rename_i hsp
    cases h
    exact ⟨hsp, rfl, rfl, rfl⟩
  · cases h

theorem State.push?_eq_none {s : State} {ret : Word} : s.push? ret = none ↔ s.sp.val = 16 := by
  simp only [State.push?]
  have := s.sp.isLt
  split <;> simp <;> omega

/-- Everything a pop can do. -/
theorem State.pop?_eq_some {s t : State} {target : Word} (h : s.pop? = some (target, t)) :
    ∃ hsp : s.sp.val - 1 < 16, 0 < s.sp.val ∧ target = s.stack.get ⟨s.sp.val - 1, hsp⟩ ∧
      t.sp.val = s.sp.val - 1 ∧ { t with sp := s.sp } = s := by
  simp only [State.pop?] at h
  split at h
  · cases h
  · rename_i hne
    cases h
    exact ⟨by have := s.sp.isLt; omega, by omega, rfl, rfl, rfl⟩

theorem State.pop?_eq_none {s : State} : s.pop? = none ↔ s.sp.val = 0 := by
  simp only [State.pop?]
  split <;> simp_all

/-! Memory. -/

theorem Memory.inRange_iff (a n : Nat) : Memory.inRange a n = true ↔ n = 0 ∨ a + n ≤ 4096 := by
  simp [Memory.inRange, Config.memSize]

/-- Everything a checked read can do (R44). -/
theorem State.readRange?_eq_some {s : State} {a n : Nat} {bs : List Byte} :
    s.readRange? a n = some bs ↔ (n = 0 ∨ a + n ≤ 4096) ∧ bs = Memory.readN s.mem a n := by
  rw [← Memory.inRange_iff, State.readRange?]
  by_cases h : Memory.inRange a n = true
  · rw [if_pos h, Option.some.injEq, eq_comm]; exact ⟨fun e => ⟨h, e⟩, fun e => e.2⟩
  · rw [if_neg h]; exact ⟨fun e => (by cases e), fun e => absurd e.1 h⟩

theorem State.readRange?_eq_none {s : State} {a n : Nat} :
    s.readRange? a n = none ↔ n ≠ 0 ∧ 4096 < a + n := by
  have hr := Memory.inRange_iff a n
  rw [State.readRange?]
  by_cases h : Memory.inRange a n = true
  · have := hr.1 h
    rw [if_pos h]; exact ⟨fun e => (by cases e), fun e => by omega⟩
  · have := mt hr.2 h
    rw [if_neg h]; exact ⟨fun _ => by omega, fun _ => rfl⟩

/-- Everything a checked write can do (R44). -/
theorem State.writeRange?_eq_some {s t : State} {a : Nat} {bs : List Byte} :
    s.writeRange? a bs = some t ↔
      (bs.length = 0 ∨ a + bs.length ≤ 4096) ∧ t = s.setMem (Memory.writeN s.mem a bs) := by
  rw [← Memory.inRange_iff, State.writeRange?]
  by_cases h : Memory.inRange a bs.length = true
  · rw [if_pos h, Option.some.injEq, eq_comm]; exact ⟨fun e => ⟨h, e⟩, fun e => e.2⟩
  · rw [if_neg h]; exact ⟨fun e => (by cases e), fun e => absurd e.1 h⟩

theorem State.writeRange?_eq_none {s : State} {a : Nat} {bs : List Byte} :
    s.writeRange? a bs = none ↔ bs.length ≠ 0 ∧ 4096 < a + bs.length := by
  have hr := Memory.inRange_iff a bs.length
  rw [State.writeRange?]
  by_cases h : Memory.inRange a bs.length = true
  · have := hr.1 h
    rw [if_pos h]; exact ⟨fun e => (by cases e), fun e => by omega⟩
  · have := mt hr.2 h
    rw [if_neg h]; exact ⟨fun _ => by omega, fun _ => rfl⟩

/-- Everything fetch can do (R42, R45, R61). -/
theorem State.fetchWord_eq_some {s : State} {w : Word} :
    s.fetchWord = some w ↔ s.pc.toNat ≤ 4094 ∧
      w = wordOfBytes (Memory.read s.mem s.pc.toNat) (Memory.read s.mem (s.pc.toNat + 1)) := by
  simp only [State.fetchWord]
  split
  · simp; omega
  · simp only [Option.some.injEq, eq_comm]; constructor
    · intro h; exact ⟨by omega, h⟩
    · exact fun h => h.2

theorem State.fetchWord_eq_none {s : State} : s.fetchWord = none ↔ 4094 < s.pc.toNat := by
  simp only [State.fetchWord]
  split <;> simp_all

/-! Faults and free values. -/

/-- A handler's fault is a next state in which only the latch and the record are new (R203). -/
theorem faultIn_eq (code : FaultCode) (i : Instr) (s : State) :
    faultIn code i s = .next (s.halt ⟨code, some s.pc, some (encode i), none⟩) := rfl

theorem State.draw8_eq (s : State) :
    s.draw8 = (Config.freeByte s.draws, { s with draws := s.draws + 1 }) := rfl

end Sys2Proof.Machine
end

