-- ==== Sys2Proof/Laws/Display.lean ====
section
/-! SUPPORT. What a sprite bit, a sprite row and a whole sprite do to the framebuffer and the collision
flag. -/
namespace Sys2Proof.Machine

/-- A flip changes its own cell only (R161). -/
theorem fbCell_fbFlip (fb : BitVec 2048) (p q : FbCell) :
    fbCell (fbFlip fb p) q = (fbCell fb q ^^ decide (p = q)) := by
  have hp := p.isLt
  simp only [fbCell, fbFlip, BitVec.getLsbD_xor, BitVec.getLsbD_twoPow, Fin.ext_iff, hp, decide_true,
    Bool.true_and]

/-- A cleared framebuffer holds 0 everywhere (R160). -/
theorem fbCell_zero (p : FbCell) : fbCell 0 p = false := BitVec.getLsbD_zero

/-- Framebuffers with equal cells are equal. -/
theorem fb_ext {f g : BitVec 2048} (h : ∀ p, fbCell f p = fbCell g p) : f = g :=
  BitVec.eq_of_getLsbD_eq fun i hi => h ⟨i, hi⟩

@[simp] theorem fbIndex_val (a b : Byte) (r c : Nat) :
    (fbIndex a b r c).val = ((a.toNat + c) + (b.toNat + r) * 64) % 2048 := rfl

/-- Two sprite bits of one DRW reach different cells (R161: at most 15 rows, 8 columns). -/
theorem fbIndex_inj (a b : Byte) (r r' c c' : Nat) (hr : r < 15) (hr' : r' < 15) (hc : c < 8) (hc' : c' < 8)
    (h : fbIndex a b r c = fbIndex a b r' c') : r = r' ∧ c = c' := by
  have e := congrArg Fin.val h
  simp only [fbIndex_val] at e
  omega

theorem mem_columns (c : Nat) : c ∈ columns ↔ c < 8 := by simp [columns]; omega

/-- A set bit of the sprite byte, in one of the columns `cs`, lands on cell `q` from row `r`. -/
def RowLights (a b : Byte) (r : Nat) (byte : Byte) (cs : List Nat) (q : FbCell) : Prop :=
  ∃ c ∈ cs, spriteBit byte c = true ∧ fbIndex a b r c = q

theorem rowLights_cons (a b : Byte) (r : Nat) (byte : Byte) (c : Nat) (cs : List Nat) (q : FbCell) :
    RowLights a b r byte (c :: cs) q ↔
      (spriteBit byte c = true ∧ fbIndex a b r c = q) ∨ RowLights a b r byte cs q := by
  simp [RowLights]

/-- From `d` to `e` exactly the cells of `P` are flipped, and the flag is set iff it was or a cell of `P` held
1. -/
structure Draws (P : FbCell → Prop) (d e : Blit) : Prop where
  lit : ∀ q, P q → fbCell e.fb q = !fbCell d.fb q
  unlit : ∀ q, ¬ P q → fbCell e.fb q = fbCell d.fb q
  hit : e.hit = true ↔ d.hit = true ∨ ∃ q, P q ∧ fbCell d.fb q = true

theorem Draws.nothing (d : Blit) (P : FbCell → Prop) (hP : ∀ q, ¬ P q) : Draws P d d where
  lit q h := absurd h (hP q)
  unlit _ _ := rfl
  hit := ⟨Or.inl, fun h => h.elim id fun ⟨q, hq, _⟩ => absurd hq (hP q)⟩

/-- The same draw, its cells described in another way. -/
theorem Draws.congr {P Q : FbCell → Prop} {d e : Blit} (h : Draws P d e) (hPQ : ∀ q, P q ↔ Q q) :
    Draws Q d e := by
  have : P = Q := funext fun q => propext (hPQ q)
  exact this ▸ h

/-- Two draws whose cells differ: together they flip the cells of both. -/
theorem Draws.compose {P Q : FbCell → Prop} {d e f : Blit} (h : Draws P d e) (g : Draws Q e f)
    (hPQ : ∀ q, Q q → ¬ P q) : Draws (fun q => P q ∨ Q q) d f where
  lit q hq := by
    rcases hq with hp | hq
    · rw [g.unlit q fun hq => hPQ q hq hp, h.lit q hp]
    · rw [g.lit q hq, h.unlit q (hPQ q hq)]
  unlit q hq := by
    rw [g.unlit q fun h => hq (Or.inr h), h.unlit q fun h => hq (Or.inl h)]
  hit := by
    rw [g.hit, h.hit, or_assoc]
    refine or_congr_right ⟨?_, ?_⟩
    · rintro (⟨q, hp, hc⟩ | ⟨q, hq, hc⟩)
      · exact ⟨q, Or.inl hp, hc⟩
      · exact ⟨q, Or.inr hq, (h.unlit q (hPQ q hq)) ▸ hc⟩
    · rintro ⟨q, hp | hq, hc⟩
      · exact Or.inl ⟨q, hp, hc⟩
      · exact Or.inr ⟨q, hq, (h.unlit q (hPQ q hq)).trans hc⟩

/-- One sprite bit: a clear bit touches nothing; a set bit flips its cell and records a collision (R161). -/
theorem drawBit_spec (a b : Byte) (r : Nat) (byte : Byte) (c : Nat) (d : Blit) :
    Draws (fun q => spriteBit byte c = true ∧ fbIndex a b r c = q) d (drawBit a b r byte c d) := by
  by_cases hs : spriteBit byte c = true
  · have e : drawBit a b r byte c d = flipCell (fbIndex a b r c) d := if_pos hs
    rw [e]
    refine ⟨fun q h => ?_, fun q h => ?_, ?_⟩
    · rw [flipCell, fbCell_fbFlip, decide_eq_true h.2, Bool.xor_true]
    · rw [flipCell, fbCell_fbFlip, decide_eq_false fun e => h ⟨hs, e⟩, Bool.xor_false]
    · rw [flipCell, Bool.or_eq_true]
      exact or_congr_right ⟨fun h => ⟨_, ⟨hs, rfl⟩, h⟩, fun ⟨_, ⟨_, e⟩, h⟩ => e ▸ h⟩
  · have e : drawBit a b r byte c d = d := if_neg hs
    rw [e]
    exact Draws.nothing d _ fun q h => hs h.1

/-- The columns of one row: each lit cell is flipped once (R161). -/
theorem foldl_drawBit_spec (a b : Byte) (r : Nat) (byte : Byte) (hr : r < 15) (cs : List Nat)
    (hc : ∀ c ∈ cs, c < 8) (hnd : cs.Nodup) (d : Blit) :
    Draws (RowLights a b r byte cs) d (cs.foldl (fun d c => drawBit a b r byte c d) d) := by
  induction cs generalizing d with
  | nil => exact Draws.nothing d _ fun q ⟨c, hm, _⟩ => List.not_mem_nil hm
  | cons c cs ih =>
    obtain ⟨hnotin, hnd'⟩ := List.nodup_cons.1 hnd
    have g := ih (fun c h => hc c (List.mem_cons_of_mem _ h)) hnd' (drawBit a b r byte c d)
    refine ((drawBit_spec a b r byte c d).compose g ?_).congr fun q => (rowLights_cons ..).symm
    rintro q ⟨c', hm, _, rfl⟩ ⟨_, e⟩
    have := (fbIndex_inj a b r r c c' hr hr (hc c List.mem_cons_self)
      (hc c' (List.mem_cons_of_mem _ hm)) e).2
    subst this
    exact hnotin hm

/-- A set bit of the sprite bytes `bs`, drawn from row `r` down, lands on cell `q`. -/
def BlockLights (a b : Byte) (r : Nat) : List Byte → FbCell → Prop
  | [], _ => False
  | byte :: bs, q => RowLights a b r byte columns q ∨ BlockLights a b (r + 1) bs q

theorem blockLights_iff (a b : Byte) (bs : List Byte) (r : Nat) (q : FbCell) :
    BlockLights a b r bs q ↔
      ∃ k c, k < bs.length ∧ c < 8 ∧ spriteBit (bs.getD k 0) c = true ∧ fbIndex a b (r + k) c = q := by
  induction bs generalizing r with
  | nil => simp [BlockLights]
  | cons byte bs ih =>
    simp only [BlockLights, ih, RowLights, mem_columns]
    constructor
    · rintro (⟨c, hc, hs, e⟩ | ⟨k, c, hk, hc, hs, e⟩)
      · exact ⟨0, c, by simp, hc, by simpa using hs, e⟩
      · exact ⟨k + 1, c, by simpa using hk, hc, by simpa using hs, by rw [← e]; congr 1; omega⟩
    · rintro ⟨k, c, hk, hc, hs, e⟩
      cases k with
      | zero => exact Or.inl ⟨c, hc, by simpa using hs, e⟩
      | succ k =>
        exact Or.inr ⟨k, c, by simpa using hk, hc, by simpa using hs, by rw [← e]; congr 1; omega⟩

/-- Everything drawing a sprite of up to 15 rows can do: each lit cell is flipped once, and the flag is set
iff a lit cell held 1 (R161). -/
theorem drawRows_spec (a b : Byte) (bs : List Byte) (r : Nat) (hr : r + bs.length ≤ 15) (d : Blit) :
    Draws (BlockLights a b r bs) d (drawRows a b r bs d) := by
  induction bs generalizing r d with
  | nil => exact Draws.nothing d _ fun _ h => h
  | cons byte bs ih =>
    simp only [List.length_cons] at hr
    have g := ih (r + 1) (by omega) (drawRow a b r byte d)
    have h := foldl_drawBit_spec a b r byte (by omega) columns (by decide) (by decide) d
    refine Draws.compose h g ?_
    rintro q hq ⟨c', hm', _, rfl⟩
    obtain ⟨k, c, hk, hc, _, e⟩ := (blockLights_iff a b bs (r + 1) _).1 hq
    have := (fbIndex_inj a b (r + 1 + k) r c c' (by omega) (by omega) hc ((mem_columns c').1 hm') e).1
    omega

end Sys2Proof.Machine
end

