-- ==== Sys2Proof/Laws/Operands.lean ====
section
/-! SUPPORT. What the operand forms give. -/
namespace Sys2Proof.Machine

theorem addrOperand_toNat (nnn : Addr) : (addrOperand nnn).toNat = nnn.toNat := by
  have := nnn.isLt
  simp only [addrOperand, BitVec.toNat_setWidth]
  omega

/-- JP V0's target never wraps (R107, R17). -/
theorem indexedTarget_toNat (nnn : Addr) (v0 : Byte) :
    (indexedTarget nnn v0).toNat = nnn.toNat + v0.toNat + 2 := by
  have h1 := nnn.isLt
  have h2 := v0.isLt
  have h3 : (2 : Word).toNat = 2 := rfl
  simp only [indexedTarget, BitVec.toNat_add, addrOperand_toNat, BitVec.toNat_setWidth, h3]
  omega

theorem indexPlus_toNat (i : Word) (a : Byte) :
    (indexPlus i a).toNat = (i.toNat + a.toNat) % 65536 := by
  have h2 := a.isLt
  simp only [indexPlus, BitVec.toNat_add, BitVec.toNat_setWidth]
  omega

theorem glyphAddress_toNat (a : Byte) : (glyphAddress a).toNat = 5 * a.toNat := by
  have h2 := a.isLt
  simp only [glyphAddress, BitVec.toNat_ofNat]
  omega

@[simp] theorem length_bcdDigits (a : Byte) : (bcdDigits a).length = 3 := rfl

@[simp] theorem State.length_regBlock (s : State) (x : Reg) : (s.regBlock x).length = x.val + 1 := by
  have := x.isLt
  simp [State.regBlock]

/-- Byte `k` of the stored block is register `k` (R144). -/
theorem State.getD_regBlock (s : State) (x k : Reg) (h : k.val ≤ x.val) :
    (s.regBlock x).getD k.val 0 = s.getV k := by
  have h1 : k.val < (s.regBlock x).length := by simp; omega
  rw [List.getD_eq_getElem _ _ h1]
  simp [State.regBlock, State.getV, Vector.get_eq_getElem]

/-- Register `j` after a block load (R145). -/
theorem fillRegs_get (bs : List Byte) (k : Nat) (v : Vector Byte 16) (j : Reg) :
    (fillRegs k bs v).get j =
      if k ≤ j.val ∧ j.val < k + bs.length then bs.getD (j.val - k) 0 else v.get j := by
  induction bs generalizing k v with
  | nil =>
    rw [if_neg (by simp)]; rfl
  | cons b bs ih =>
    rw [fillRegs, ih]
    simp only [Vector.get_eq_getElem, Vector.getElem_setIfInBounds, List.length_cons]
    by_cases hk : k = j.val
    · subst hk
      rw [if_neg (by omega), if_pos rfl, if_pos (by omega)]; simp
    · by_cases hin : k + 1 ≤ j.val ∧ j.val < k + 1 + bs.length
      · rw [if_pos hin, if_pos (by omega)]
        obtain ⟨d, hd⟩ : ∃ d, j.val = k + 1 + d := ⟨j.val - (k + 1), by omega⟩
        have e1 : j.val - (k + 1) = d := by omega
        have e2 : j.val - k = d + 1 := by omega
        simp [e1, e2]
      · rw [if_neg hin, if_neg hk, if_neg (by omega)]

theorem keyOfValue_eq_some {a : Byte} {k : Key} : keyOfValue a = some k ↔ a.toNat = k.val := by
  have := k.isLt
  simp only [keyOfValue]
  split
  · simp [Fin.ext_iff]
  · simp; omega

theorem keyOfValue_eq_none {a : Byte} : keyOfValue a = none ↔ 15 < a.toNat := by
  simp only [keyOfValue]
  split <;> simp <;> omega

theorem mem_keyOrder (k : Key) : k ∈ keyOrder := by revert k; decide

theorem keyOrder_sorted : keyOrder.Pairwise (· < ·) := by decide

/-- LD Vx,K sees no key exactly when none is held (R173). -/
theorem State.lowestHeld_eq_none {s : State} : s.lowestHeld = none ↔ ∀ k, s.held k = false := by
  simp only [State.lowestHeld, List.find?_eq_none, Bool.not_eq_true]
  exact ⟨fun h k => h k (mem_keyOrder k), fun h k _ => h k⟩

/-- The key LD Vx,K takes is held, and no lower one is (R173). -/
theorem State.lowestHeld_eq_some {s : State} {k : Key} (h : s.lowestHeld = some k) :
    s.held k = true ∧ ∀ j, j < k → s.held j = false := by
  simp only [State.lowestHeld, List.find?_eq_some_iff_append] at h
  obtain ⟨hk, as, bs, hsplit, hno⟩ := h
  refine ⟨hk, fun j hj => ?_⟩
  have hmem := mem_keyOrder j
  have hsorted := keyOrder_sorted
  rw [hsplit] at hmem hsorted
  rcases List.mem_append.1 hmem with hin | hin
  · simpa using hno j hin
  · rw [List.pairwise_append] at hsorted
    rcases List.mem_cons.1 hin with rfl | hin
    · exact absurd hj (lt_irrefl _)
    · have := List.rel_of_pairwise_cons hsorted.2.1 hin
      exact absurd hj (not_lt.2 (le_of_lt this))

theorem keyByte_toNat (k : Key) : (keyByte k).toNat = k.val := by
  have := k.isLt
  simp only [keyByte, BitVec.toNat_ofNat]
  omega

end Sys2Proof.Machine
end

