-- ==== Sys2Proof/Laws/PerInstr.lean ====
section
/-! SUPPORT. Per-instruction families: one lemma per constructor. -/
namespace Sys2Proof.Laws.EncodingRow

/-- The word `encode` gives selects the instruction's own row of the instruction list (R68). -/
def Statement (i : Instr) : Prop := rowMatches (opcodeRow i) (encode i) = true

/-- A field under an empty mask, with the literal as the packed forms write it. -/
theorem and_zero_lit {n : Nat} (b : BitVec n) : b &&& 0 = 0 := BitVec.and_zero

/-- Format A under the mask of its rows: the leading nibble stays. -/
theorem packA_masked (f : Nibble) (nnn : Addr) : packA f nnn &&& 0xF000 = f ++ (0 : Addr) := by
  have h : (0xF000 : Word) = (0xF : Nibble) ++ (0 : Addr) := rfl
  have hf : f &&& 0xF = f := BitVec.and_allOnes
  rw [packA, h, BitVec.and_append, hf, and_zero_lit]

/-- Format XK under a mask that keeps the leading nibble and the bits `m` of KK. -/
theorem packXK_masked (f : Nibble) (x : Reg) (kk m : Byte) :
    packXK f x kk &&& ((0xF : Nibble) ++ (0 : Nibble) ++ m) = f ++ (0 : Nibble) ++ (kk &&& m) := by
  have hf : f &&& 0xF = f := BitVec.and_allOnes
  rw [packXK, BitVec.and_append, BitVec.and_append, hf, and_zero_lit]

/-- Formats XY, XYS, XYN under a mask that keeps the leading nibble and the bits `m` of the low one. -/
theorem packXYN_masked (f : Nibble) (x y : Reg) (n m : Nibble) :
    packXYN f x y n &&& ((0xF : Nibble) ++ (0 : Nibble) ++ (0 : Nibble) ++ m) =
      f ++ (0 : Nibble) ++ (0 : Nibble) ++ (n &&& m) := by
  have hf : f &&& 0xF = f := BitVec.and_allOnes
  rw [packXYN, BitVec.and_append, BitVec.and_append, BitVec.and_append, hf, and_zero_lit,
    and_zero_lit]

theorem cls : Statement .cls :=
  rfl

theorem ret : Statement .ret :=
  rfl

theorem jp (nnn : Addr) : Statement (.jp nnn) :=
  beq_iff_eq.2 (packA_masked _ nnn)

theorem call (nnn : Addr) : Statement (.call nnn) :=
  beq_iff_eq.2 (packA_masked _ nnn)

theorem seVxKK (x : Reg) (kk : Byte) : Statement (.seVxKK x kk) :=
  beq_iff_eq.2 ((packXK_masked _ x kk 0).trans (by rw [and_zero_lit]; rfl))

theorem sneVxKK (x : Reg) (kk : Byte) : Statement (.sneVxKK x kk) :=
  beq_iff_eq.2 ((packXK_masked _ x kk 0).trans (by rw [and_zero_lit]; rfl))

theorem seVxVy (x : Reg) (y : Reg) : Statement (.seVxVy x y) :=
  beq_iff_eq.2 ((packXYN_masked _ x y 0 0).trans (by rw [and_zero_lit]; rfl))

theorem ldVxKK (x : Reg) (kk : Byte) : Statement (.ldVxKK x kk) :=
  beq_iff_eq.2 ((packXK_masked _ x kk 0).trans (by rw [and_zero_lit]; rfl))

theorem addVxKK (x : Reg) (kk : Byte) : Statement (.addVxKK x kk) :=
  beq_iff_eq.2 ((packXK_masked _ x kk 0).trans (by rw [and_zero_lit]; rfl))

theorem ldVxVy (x : Reg) (y : Reg) : Statement (.ldVxVy x y) :=
  beq_iff_eq.2 (packXYN_masked _ x y _ 0xF)

theorem orVxVy (x : Reg) (y : Reg) : Statement (.orVxVy x y) :=
  beq_iff_eq.2 (packXYN_masked _ x y _ 0xF)

theorem andVxVy (x : Reg) (y : Reg) : Statement (.andVxVy x y) :=
  beq_iff_eq.2 (packXYN_masked _ x y _ 0xF)

theorem xorVxVy (x : Reg) (y : Reg) : Statement (.xorVxVy x y) :=
  beq_iff_eq.2 (packXYN_masked _ x y _ 0xF)

theorem addVxVy (x : Reg) (y : Reg) : Statement (.addVxVy x y) :=
  beq_iff_eq.2 (packXYN_masked _ x y _ 0xF)

theorem subVxVy (x : Reg) (y : Reg) : Statement (.subVxVy x y) :=
  beq_iff_eq.2 (packXYN_masked _ x y _ 0xF)

theorem shrVx (x : Reg) : Statement (.shrVx x) :=
  beq_iff_eq.2 (packXYN_masked _ x 0 _ 0xF)

theorem subnVxVy (x : Reg) (y : Reg) : Statement (.subnVxVy x y) :=
  beq_iff_eq.2 (packXYN_masked _ x y _ 0xF)

theorem shlVx (x : Reg) : Statement (.shlVx x) :=
  beq_iff_eq.2 (packXYN_masked _ x 0 _ 0xF)

theorem sneVxVy (x : Reg) (y : Reg) : Statement (.sneVxVy x y) :=
  beq_iff_eq.2 ((packXYN_masked _ x y 0 0).trans (by rw [and_zero_lit]; rfl))

theorem ldINNN (nnn : Addr) : Statement (.ldINNN nnn) :=
  beq_iff_eq.2 (packA_masked _ nnn)

theorem jpV0NNN (nnn : Addr) : Statement (.jpV0NNN nnn) :=
  beq_iff_eq.2 (packA_masked _ nnn)

theorem rndVxKK (x : Reg) (kk : Byte) : Statement (.rndVxKK x kk) :=
  beq_iff_eq.2 ((packXK_masked _ x kk 0).trans (by rw [and_zero_lit]; rfl))

theorem drwVxVyN (x : Reg) (y : Reg) (n : Nibble) : Statement (.drwVxVyN x y n) :=
  beq_iff_eq.2 ((packXYN_masked _ x y n 0).trans (by rw [and_zero_lit]; rfl))

theorem skpVx (x : Reg) : Statement (.skpVx x) :=
  beq_iff_eq.2 (packXK_masked _ x _ 0xFF)

theorem sknpVx (x : Reg) : Statement (.sknpVx x) :=
  beq_iff_eq.2 (packXK_masked _ x _ 0xFF)

theorem ldVxDT (x : Reg) : Statement (.ldVxDT x) :=
  beq_iff_eq.2 (packXK_masked _ x _ 0xFF)

theorem ldVxK (x : Reg) : Statement (.ldVxK x) :=
  beq_iff_eq.2 (packXK_masked _ x _ 0xFF)

theorem ldDTVx (x : Reg) : Statement (.ldDTVx x) :=
  beq_iff_eq.2 (packXK_masked _ x _ 0xFF)

theorem ldSTVx (x : Reg) : Statement (.ldSTVx x) :=
  beq_iff_eq.2 (packXK_masked _ x _ 0xFF)

theorem addIVx (x : Reg) : Statement (.addIVx x) :=
  beq_iff_eq.2 (packXK_masked _ x _ 0xFF)

theorem ldFVx (x : Reg) : Statement (.ldFVx x) :=
  beq_iff_eq.2 (packXK_masked _ x _ 0xFF)

theorem ldBVx (x : Reg) : Statement (.ldBVx x) :=
  beq_iff_eq.2 (packXK_masked _ x _ 0xFF)

theorem ldMemVx (x : Reg) : Statement (.ldMemVx x) :=
  beq_iff_eq.2 (packXK_masked _ x _ 0xFF)

theorem ldVxMem (x : Reg) : Statement (.ldVxMem x) :=
  beq_iff_eq.2 (packXK_masked _ x _ 0xFF)

end Sys2Proof.Laws.EncodingRow
end

