-- ==== Sys2Proof/Laws/Timers.lean ====
section
/-! SUPPORT. What the timer policy does. -/
namespace Sys2Proof.Machine

theorem serviceDT_eq (s : State) :
    serviceDT s = { s with dt := if 0 < s.dt.toNat then s.dt - 1 else s.dt } := by
  simp only [serviceDT]; split <;> rfl

theorem serviceST_eq (s : State) :
    serviceST s = { s with
      st := if 0 < s.st.toNat then s.st - 1 else s.st
      soundStops := if s.st.toNat ≤ 1 then s.soundStops + 1 else s.soundStops } := by
  simp only [serviceST]
  by_cases h : 0 < s.st.toNat
  · by_cases h1 : s.st = 1
    · simp [h1, State.setST, State.emitSoundStop]
    · have hle : ¬ s.st.toNat ≤ 1 := by
        intro hle
        exact h1 (BitVec.eq_of_toNat_eq (by show s.st.toNat = 1; omega))
      rw [if_pos h, if_neg h1, if_pos h, if_neg hle]; rfl
  · have : s.st.toNat ≤ 1 := by omega
    simp [h, this, State.emitSoundStop]

/-- The timer policy writes `tick`, `DT`, `ST` and the SoundStop count only (R210 to R212). -/
theorem timerPolicy_frame (s : State) :
    { timerPolicy s with tick := s.tick, dt := s.dt, st := s.st, soundStops := s.soundStops } = s := by
  simp only [timerPolicy]
  split
  · rfl
  · simp only [serviceST_eq, serviceDT_eq]

end Sys2Proof.Machine
end

