-- ==== Sys2Proof/Laws/Step.lean ====
section
/-! SUPPORT. Everything a cycle can do, said once, and what it means that a handler halts the CORE. -/
namespace Sys2Proof.Machine

theorem timerPolicy_halted (s : State) : (timerPolicy s).halted = s.halted := by
  simpa using congrArg State.halted (timerPolicy_frame s)

/-- A cycle ends halted exactly when its handler took a fault (R203). -/
theorem finishCycle_halted (s : State) : (finishCycle s).halted = s.halted := by
  simp only [finishCycle]
  split <;> simp [timerPolicy_halted]

/-- Everything a step can do (R60, R204, R213): nothing while halted, the fault of the fetch, the fault of the
decoder, or the handler and what follows it. -/
theorem step_cases {s t : State} (h : step s = .next t) :
    (s.halted = true ∧ t = s) ∨
    (s.halted = false ∧ s.fetchWord = none ∧ t = s.faultInFetch) ∨
    (∃ w e, s.halted = false ∧ s.fetchWord = some w ∧ decodeWord w = .error e ∧ t = s.faultInDecode w) ∨
    ∃ w i u, s.halted = false ∧ s.fetchWord = some w ∧ decodeWord w = .ok i ∧ exec i s = .next u ∧
      t = finishCycle u := by
  simp only [step] at h
  cases hs : s.halted with
  | true => rw [hs] at h; cases h; exact .inl ⟨rfl, rfl⟩
  | false =>
    rw [hs] at h
    cases hf : s.fetchWord with
    | none => rw [hf] at h; cases h; exact .inr (.inl ⟨rfl, rfl, rfl⟩)
    | some w =>
      rw [hf] at h
      cases hd : decodeWord w with
      | error e => simp only [hd] at h; cases h; exact .inr (.inr (.inl ⟨w, e, rfl, rfl, hd, rfl⟩))
      | ok i =>
        simp only [hd] at h
        cases hx : exec i s with
        | next u => simp only [hx] at h; cases h; exact .inr (.inr (.inr ⟨w, i, u, rfl, rfl, hd, hx, rfl⟩))
        | fault f => cases f
        | refused r => simp only [hx] at h; cases h

/-- A handler that leaves a running CORE halted has done nothing but take a fault (R203). -/
theorem exec_halted {i : Instr} {s t : State} (he : exec i s = .next t) (hs : s.halted = false)
    (ht : t.halted = true) : ∃ code, t = s.raiseFault code (some (encode i)) := by
  cases i
  case ret =>
    simp only [exec, execRet] at he
    split at he
    · rename_i h
      obtain ⟨_, _, _, _, frame⟩ := State.pop?_eq_some h
      cases he
      have := congrArg State.halted frame
      simp_all
    · cases he; exact ⟨_, rfl⟩
  case call =>
    simp only [exec, execCall] at he
    split at he
    · rename_i h
      obtain ⟨_, _, _, frame⟩ := State.push?_eq_some h
      cases he
      have := congrArg State.halted frame
      simp_all
    · cases he; exact ⟨_, rfl⟩
  case ldBVx =>
    simp only [exec, execLdBVx] at he
    split at he
    · rename_i h; obtain ⟨_, rfl⟩ := State.writeRange?_eq_some.1 h
      cases he; simp [State.advance, hs] at ht
    · cases he; exact ⟨_, rfl⟩
  case ldMemVx =>
    simp only [exec, execLdMemVx] at he
    split at he
    · rename_i h; obtain ⟨_, rfl⟩ := State.writeRange?_eq_some.1 h
      cases he; simp [State.advance, hs] at ht
    · cases he; exact ⟨_, rfl⟩
  case ldVxMem =>
    simp only [exec, execLdVxMem] at he
    split at he <;> cases he
    · simp [State.advance, hs] at ht
    · exact ⟨_, rfl⟩
  case drwVxVyN =>
    simp only [exec, execDrwVxVyN] at he
    split at he <;> cases he
    · simp [State.advance, hs] at ht
    · exact ⟨_, rfl⟩
  case skpVx =>
    simp only [exec, execSkpVx] at he
    split at he <;> cases he
    · simp [State.skipIf, hs] at ht
    · exact ⟨_, rfl⟩
  case sknpVx =>
    simp only [exec, execSknpVx] at he
    split at he <;> cases he
    · simp [State.skipIf, hs] at ht
    · exact ⟨_, rfl⟩
  case ldVxK =>
    simp only [exec, execLdVxK] at he
    split at he <;> cases he <;> simp [State.advance, hs] at ht
  all_goals
    cases he
    have : s.halted = true := ht
    simp [hs] at this

end Sys2Proof.Machine
end

