-- ==== Sys2Proof/Tests/Slice0.lean ====
section
/-! SUPPORT. Tests: WellFormed's checks on ill-formed values, every constructor's decoding from a word written
out from R68's patterns, the spec's own vectors (95_test_vectors, ids in the comments), and a witness for
the hypotheses of every statement that has some. -/
namespace Sys2Proof.Tests

open Sys2Proof Sys2Proof.Machine

/-! WellFormed: each check refuses an ill-formed value. -/

theorem test_wf_reg : WellFormed.regOk 16 = false := by decide
theorem test_wf_byte : WellFormed.byteOk 256 = false := by decide
theorem test_wf_nibble : WellFormed.nibbleOk 16 = false := by decide
theorem test_wf_addr : WellFormed.addrOk 4096 = false := by decide
theorem test_wf_key : WellFormed.keyOk 16 = false := by decide
/-- V-F12: 3585 bytes do not load. -/
theorem test_wf_image : WellFormed.imageOk (List.replicate 3585 0) = false := by
  rw [WellFormed.imageOk, List.length_replicate]; rfl
/-- V-F13: 3584 bytes do. -/
theorem test_wf_image_max : WellFormed.imageOk (List.replicate 3584 0) = true := by
  rw [WellFormed.imageOk, List.length_replicate]; rfl
theorem test_wf_instr : WellFormed.instrOk (.drwVxVyN 15 15 15) = true := by decide

/-! Decoding: leading nibble, then the fields, as R63, R64 and R68 lay them out. -/

theorem test_decode_cls : decodeWord 0b0000_0000_1110_0000 = .ok .cls := rfl
theorem test_decode_ret : decodeWord 0b0000_0000_1110_1110 = .ok .ret := rfl
theorem test_decode_jp : decodeWord 0b0001_0010_0011_0100 = .ok (.jp 0x234) := rfl
theorem test_decode_call : decodeWord 0b0010_1010_1011_1100 = .ok (.call 0xABC) := rfl
theorem test_decode_seVxKK : decodeWord 0b0011_0011_0010_1010 = .ok (.seVxKK 3 0x2A) := rfl
theorem test_decode_sneVxKK : decodeWord 0b0100_1100_1101_0111 = .ok (.sneVxKK 12 0xD7) := rfl
theorem test_decode_seVxVy : decodeWord 0b0101_0001_0010_0111 = .ok (.seVxVy 1 2) := rfl
theorem test_decode_ldVxKK : decodeWord 0b0110_1111_0101_0101 = .ok (.ldVxKK 15 0x55) := rfl
theorem test_decode_addVxKK : decodeWord 0b0111_0010_0010_0000 = .ok (.addVxKK 2 0x20) := rfl
theorem test_decode_ldVxVy : decodeWord 0b1000_0011_0100_0000 = .ok (.ldVxVy 3 4) := rfl
theorem test_decode_orVxVy : decodeWord 0b1000_0001_0010_0001 = .ok (.orVxVy 1 2) := rfl
theorem test_decode_andVxVy : decodeWord 0b1000_0001_0010_0010 = .ok (.andVxVy 1 2) := rfl
theorem test_decode_xorVxVy : decodeWord 0b1000_0001_0010_0011 = .ok (.xorVxVy 1 2) := rfl
theorem test_decode_addVxVy : decodeWord 0b1000_0001_1111_0100 = .ok (.addVxVy 1 15) := rfl
theorem test_decode_subVxVy : decodeWord 0b1000_1111_0001_0101 = .ok (.subVxVy 15 1) := rfl
theorem test_decode_shrVx : decodeWord 0b1000_0001_0010_0110 = .ok (.shrVx 1) := rfl
theorem test_decode_subnVxVy : decodeWord 0b1000_0001_0010_0111 = .ok (.subnVxVy 1 2) := rfl
theorem test_decode_shlVx : decodeWord 0b1000_0001_0011_1110 = .ok (.shlVx 1) := rfl
theorem test_decode_sneVxVy : decodeWord 0b1001_0001_0010_1111 = .ok (.sneVxVy 1 2) := rfl
theorem test_decode_ldINNN : decodeWord 0b1010_0010_1111_0000 = .ok (.ldINNN 0x2F0) := rfl
theorem test_decode_jpV0NNN : decodeWord 0b1011_0011_0000_0000 = .ok (.jpV0NNN 0x300) := rfl
theorem test_decode_rndVxKK : decodeWord 0b1100_0011_0000_1111 = .ok (.rndVxKK 3 0x0F) := rfl
theorem test_decode_drwVxVyN : decodeWord 0b1101_0001_0010_0101 = .ok (.drwVxVyN 1 2 5) := rfl
theorem test_decode_skpVx : decodeWord 0b1110_0101_1001_1110 = .ok (.skpVx 5) := rfl
theorem test_decode_sknpVx : decodeWord 0b1110_0101_1010_0001 = .ok (.sknpVx 5) := rfl
theorem test_decode_ldVxDT : decodeWord 0b1111_0011_0000_0111 = .ok (.ldVxDT 3) := rfl
theorem test_decode_ldVxK : decodeWord 0b1111_0010_0000_1010 = .ok (.ldVxK 2) := rfl
theorem test_decode_ldDTVx : decodeWord 0b1111_0001_0001_0101 = .ok (.ldDTVx 1) := rfl
theorem test_decode_ldSTVx : decodeWord 0b1111_0001_0001_1000 = .ok (.ldSTVx 1) := rfl
theorem test_decode_addIVx : decodeWord 0b1111_0010_0001_1110 = .ok (.addIVx 2) := rfl
theorem test_decode_ldFVx : decodeWord 0b1111_0001_0010_1001 = .ok (.ldFVx 1) := rfl
theorem test_decode_ldBVx : decodeWord 0b1111_0100_0011_0011 = .ok (.ldBVx 4) := rfl
theorem test_decode_ldMemVx : decodeWord 0b1111_0010_0101_0101 = .ok (.ldMemVx 2) := rfl
theorem test_decode_ldVxMem : decodeWord 0b1111_0001_0110_0101 = .ok (.ldVxMem 1) := rfl
/-- One byte is no instruction (R62). -/
theorem test_decode_truncated : decode [0x12] = .error .truncated := rfl
/-- V-F2 to V-F5: near misses are refused by their family's name. -/
theorem test_decode_near_misses :
    decodeWord 0x0123 = .error (.unrecognized0 0x0123) ∧ decodeWord 0x812F = .error (.unrecognized8 0x812F) ∧
    decodeWord 0xE1A0 = .error (.unrecognizedE 0xE1A0) ∧ decodeWord 0xF175 = .error (.unrecognizedF 0xF175) :=
  ⟨rfl, rfl, rfl, rfl⟩
/-- V-F10: big-endian. -/
theorem test_decode_big_endian : decode [0x12, 0x34, 0xFF] = .ok (.jp 0x234, [0xFF]) := rfl
/-- SYS has no handler (R71). -/
theorem test_table_word : decodeTableWord 16 0x0123 = none ∧ decodeTableWord 16 0x8FF4 = some (.addVxVy 15 15) :=
  ⟨rfl, rfl⟩

/-! One cycle of the instruction `w` from the state `s`. -/

/-- The state after one cycle that runs the word `w`. -/
def after (s : State) (w : Nat) : State :=
  match step (s.withFetchWord 16 w) with
  | .next t => t
  | _ => s

/-- The reset state, in which every vector starts. -/
def r0 : State := State.reset

/-- Reset with a byte in memory. -/
def poke (s : State) (a : Nat) (b : Byte) : State := s.setMem (Memory.write s.mem a b)

/-- Reset with `sp` and one stack slot set. -/
def stacked (sp : Fin 17) (j : Fin 16) (w : Word) : State :=
  { r0 with sp := sp, stack := r0.stack.set j.val w j.isLt }

/-- Reset in a servicing cycle. -/
def svc : State := { r0 with tick := 9 }

/-- V-C1. -/
theorem test_ret : let t := after ((stacked 1 0 0x204).setPc 0x300) 0x00EE
    t.pc = 0x204 ∧ t.sp = 0 ∧ t.stack.get 0 = 0x204 := by decide
/-- V-C2. -/
theorem test_ret_underflow : let t := after r0 0x00EE
    t.halted = true ∧ t.fault = some ⟨.stackUnderflow, some 0x200, some 0x00EE, none⟩ ∧ t.tick = 0 := by decide
/-- V-C4. -/
theorem test_jp : (after r0 0x1234).pc = 0x234 := by decide
/-- V-C8. -/
theorem test_call_16th : let t := after ((stacked 15 0 0).setPc 0x202) 0x2300
    t.stack.get 15 = 0x204 ∧ t.sp = 16 ∧ t.pc = 0x300 := by decide
/-- V-C9. -/
theorem test_call_17th : let t := after ((stacked 16 0 0).setPc 0x202) 0x2300
    t.pc = 0x202 ∧ t.fault = some ⟨.stackOverflow, some 0x202, some 0x2300, none⟩ := by decide
/-- V-C11, V-C12. -/
theorem test_seVxKK : (after (r0.setV 3 0x2A) 0x332A).pc = 0x204 ∧ (after (r0.setV 3 0x2A) 0x332B).pc = 0x202 := by
  decide
/-- V-C13, V-C14. -/
theorem test_sneVxKK : (after (r0.setV 3 0x2A) 0x432A).pc = 0x202 ∧ (after (r0.setV 3 0x2A) 0x4300).pc = 0x204 := by
  decide
/-- V-C16, V-C17. -/
theorem test_seVxVy : (after ((r0.setV 1 7).setV 2 8) 0x5120).pc = 0x202 ∧
    (after ((r0.setV 1 7).setV 2 7) 0x5127).pc = 0x204 := by decide
/-- V-C20, V-C21. -/
theorem test_sneVxVy : (after ((r0.setV 1 7).setV 2 7) 0x9120).pc = 0x202 ∧
    (after ((r0.setV 1 7).setV 2 8) 0x912F).pc = 0x204 := by decide
/-- V-C22, V-C24. -/
theorem test_jpV0NNN : (after (r0.setV 0 4) 0xB300).pc = 0x306 ∧ (after (r0.setV 0 0xFF) 0xBFFF).pc = 0x1100 := by
  decide
/-- V-A2. -/
theorem test_ldVxKK : (after r0 0x6F55).getV 15 = 0x55 ∧ (after r0 0x6F55).pc = 0x202 := by decide
/-- V-A4. -/
theorem test_addVxKK_wraps : let t := after ((r0.setV 2 0xFF).setV 15 1) 0x7201
    t.getV 2 = 0 ∧ t.getV 15 = 1 := by decide
/-- V-A6. -/
theorem test_ldVxVy : (after (r0.setV 4 0x33) 0x8340).getV 3 = 0x33 := by decide
/-- V-A7. -/
theorem test_orVxVy : let t := after (((r0.setV 1 0xF0).setV 2 0x0F).setV 15 1) 0x8121
    t.getV 1 = 0xFF ∧ t.getV 15 = 1 := by decide
/-- V-A8. -/
theorem test_andVxVy : (after ((r0.setV 1 0xF3).setV 2 0x3C) 0x8122).getV 1 = 0x30 := by decide
/-- V-A9. -/
theorem test_xorVxVy : (after ((r0.setV 1 0xFF).setV 2 0x0F) 0x8123).getV 1 = 0xF0 := by decide
/-- V-A11, V-A14. -/
theorem test_addVxVy : let t := after ((r0.setV 1 0xC8).setV 2 0x64) 0x8124
    let u := after (((r0.setV 1 0x80).setV 2 0x7F).setV 15 1) 0x8124
    t.getV 1 = 0x2C ∧ t.getV 15 = 1 ∧ u.getV 1 = 0xFF ∧ u.getV 15 = 0 := by decide
/-- V-A17, V-A18. -/
theorem test_addVxVy_vf : (after ((r0.setV 15 0xF0).setV 1 0x20) 0x8F14).getV 15 = 0x10 ∧
    (after ((r0.setV 15 0xF0).setV 1 0x20) 0x81F4).getV 1 = 0x10 ∧
    (after ((r0.setV 15 0xF0).setV 1 0x20) 0x81F4).getV 15 = 1 := by decide
/-- V-A21, V-A22. -/
theorem test_subVxVy : let t := after (((r0.setV 1 5).setV 2 10).setV 15 1) 0x8125
    let u := after (((r0.setV 1 7).setV 2 7).setV 15 1) 0x8125
    t.getV 1 = 0xFB ∧ t.getV 15 = 0 ∧ u.getV 1 = 0 ∧ u.getV 15 = 0 := by decide
/-- V-A24, V-A25. -/
theorem test_subVxVy_vf : (after ((r0.setV 15 0x10).setV 1 1) 0x8F15).getV 15 = 0x0F ∧
    (after ((r0.setV 15 0x10).setV 1 0x30) 0x81F5).getV 1 = 0x20 := by decide
/-- V-A27. -/
theorem test_shrVx : let t := after ((r0.setV 1 5).setV 2 0xFF) 0x8126
    t.getV 1 = 2 ∧ t.getV 15 = 1 ∧ t.getV 2 = 0xFF := by decide
/-- V-A30. -/
theorem test_shrVx_vf : (after (r0.setV 15 3) 0x8F06).getV 15 = 1 := by decide
/-- V-A31, V-A32. -/
theorem test_subnVxVy : let t := after ((r0.setV 1 3).setV 2 10) 0x8127
    let u := after (((r0.setV 1 10).setV 2 3).setV 15 1) 0x8127
    t.getV 1 = 7 ∧ t.getV 15 = 1 ∧ u.getV 1 = 0xF9 ∧ u.getV 15 = 0 := by decide
/-- V-A36, V-A38. -/
theorem test_shlVx : let t := after ((r0.setV 1 0x7F).setV 15 1) 0x810E
    let u := after ((r0.setV 1 0xFF).setV 3 1) 0x813E
    t.getV 1 = 0xFE ∧ t.getV 15 = 0 ∧ u.getV 1 = 0xFE ∧ u.getV 15 = 1 := by decide
/-- V-A39. -/
theorem test_shlVx_vf : (after (r0.setV 15 0xC1) 0x8F0E).getV 15 = 0x82 := by decide
/-- V-A41: a draw masked with 0 is 0, whatever was drawn. -/
theorem test_rndVxKK : (after (r0.setV 3 0x55) 0xC300).getV 3 = 0 ∧ (after r0 0xC300).draws = 1 := by
  exact ⟨BitVec.and_zero, rfl⟩
/-- V-M1. -/
theorem test_ldINNN : (after r0 0xA2F0).i = 0x2F0 := by decide
/-- V-M3, V-M4. -/
theorem test_addIVx : (after ((r0.setI 0xFFF).setV 2 1) 0xF21E).i = 0x1000 ∧
    (after ((r0.setI 0xFFFF).setV 2 1) 0xF21E).i = 0 := by decide
/-- V-M5, V-M7. -/
theorem test_ldFVx : (after (r0.setV 1 0x0A) 0xF129).i = 0x32 ∧ (after (r0.setV 1 0xFF) 0xF129).i = 0x4FB := by
  decide
/-- V-M8, V-M12. -/
theorem test_ldBVx : Memory.readN (after ((r0.setV 4 156).setI 0x300) 0xF433).mem 0x300 3 = [1, 5, 6] ∧
    Memory.readN (after ((r0.setV 4 123).setI 0xFFD) 0xF433).mem 0xFFD 3 = [1, 2, 3] := by decide
/-- V-M13. -/
theorem test_ldBVx_past_top : let t := after ((r0.setV 4 123).setI 0xFFE) 0xF433
    t.fault = some ⟨.memoryOutOfRange, some 0x200, some 0xF433, none⟩ ∧ Memory.read t.mem 0xFFE = 0 := by decide
/-- V-M15. -/
theorem test_ldMemVx : let t := after (((((r0.setV 0 0x11).setV 1 0x22).setV 2 0x33).setV 3 0x44).setI 0x400) 0xF255
    Memory.readN t.mem 0x400 4 = [0x11, 0x22, 0x33, 0] ∧ t.i = 0x400 := by decide
/-- V-M18. -/
theorem test_ldMemVx_one_too_far : (after ((r0.setV 0 1).setI 0xFF1) 0xFF55).fault =
    some ⟨.memoryOutOfRange, some 0x200, some 0xFF55, none⟩ := by decide
/-- V-M19. -/
theorem test_ldVxMem : let t := after (poke (poke (poke (r0.setI 0x400) 0x400 0xAA) 0x401 0xBB) 0x402 0xCC |>.setV 2 0x77) 0xF165
    t.getV 0 = 0xAA ∧ t.getV 1 = 0xBB ∧ t.getV 2 = 0x77 := by decide
/-- V-M20: the first sixteen font bytes. -/
theorem test_ldVxMem_font : (after r0 0xFF65).v.toList =
    [0xF0, 0x90, 0x90, 0x90, 0xF0, 0x20, 0x60, 0x20] ++ [0x20, 0x70, 0xF0, 0x10, 0xF0, 0x80, 0xF0, 0xF0] := by decide
/-- V-D1. -/
theorem test_cls : let t := after (r0.setFb (fbFlip (fbFlip 0 0) 2047)) 0x00E0
    t.fb = 0 ∧ t.drawPending = true ∧ t.pc = 0x202 := by decide +kernel
/-- V-D9: across the last cell, on the ring. -/
theorem test_drw_ring : let t := after (poke (((r0.setV 1 62).setV 2 31).setI 0x300) 0x300 0xFF) 0xD121
    (∀ p ∈ [2046, 2047, 0, 5], t.pixel p = true) ∧ t.pixel 6 = false ∧ t.pixel 2045 = false ∧ t.getV 15 = 0 := by
  decide +kernel
/-- V-D6: partial overlap. -/
theorem test_drw_overlap : let t := after ((r0.setV 0 0x0A).setFb (fbFlip (fbFlip 0 653) 654)) 0xD001
    (∀ p ∈ [650, 651, 652, 654], t.pixel p = true) ∧ t.pixel 653 = false ∧ t.getV 15 = 1 := by decide +kernel
/-- V-D16. -/
theorem test_drw_past_top : let t := after ((r0.setI 0xFFF).setV 15 1) 0xD122
    t.fault = some ⟨.memoryOutOfRange, some 0x200, some 0xD122, none⟩ ∧ t.getV 15 = 1 ∧ t.drawPending = false := by
  decide
/-- V-K1, V-K2. -/
theorem test_skpVx : (after ((r0.setV 5 0x0A).setKey 10 true) 0xE59E).pc = 0x204 ∧
    (after ((r0.setV 5 0x0A).setKey 9 true) 0xE59E).pc = 0x202 := by decide
/-- V-K6. -/
theorem test_skpVx_16 : (after (r0.setV 5 16) 0xE59E).fault =
    some ⟨.keyIndexOutOfRange, some 0x200, some 0xE59E, none⟩ := by decide
/-- V-K3, V-K4. -/
theorem test_sknpVx : (after ((r0.setV 5 0x0A).setKey 10 true) 0xE5A1).pc = 0x202 ∧
    (after (r0.setV 5 0x0A) 0xE5A1).pc = 0x204 := by decide
/-- V-K7. -/
theorem test_sknpVx_255 : (after (r0.setV 5 255) 0xE5A1).fault =
    some ⟨.keyIndexOutOfRange, some 0x200, some 0xE5A1, none⟩ := by decide
/-- V-K16: read before the service. -/
theorem test_ldVxDT_svc : let t := after (svc.setDT 5) 0xF307
    t.getV 3 = 5 ∧ t.dt = 4 ∧ t.tick = 0 ∧ t.soundStops = 1 := by decide
/-- V-K9: waiting, only `tick` moves. -/
theorem test_ldVxK_waits : let t := after (r0.setV 2 0x99) 0xF20A
    t.getV 2 = 0x99 ∧ t.pc = 0x200 ∧ t.tick = 1 := by decide
/-- V-K10: the lowest held key. -/
theorem test_ldVxK_lowest : let t := after ((r0.setKey 7 true).setKey 3 true) 0xF20A
    t.getV 2 = 3 ∧ t.pc = 0x202 := by decide
/-- V-K15: written, then serviced in the same cycle. -/
theorem test_ldDTVx_svc : let t := after (svc.setV 0 5) 0xF015
    t.dt = 4 ∧ t.tick = 0 ∧ t.soundStops = 1 := by decide
/-- V-K14, V-K18. -/
theorem test_ldSTVx : (after (r0.setV 1 2) 0xF118).st = 2 ∧ (after (r0.setV 1 2) 0xF118).soundStops = 0 ∧
    (after (svc.setST 7) 0xF118).st = 0 ∧ (after (svc.setST 7) 0xF118).soundStops = 1 := by decide
/-- V-K19, V-K20: the service of `ST` = 2 and of `ST` = 1. -/
theorem test_service : (after (svc.setST 2) 0x1200).st = 1 ∧ (after (svc.setST 2) 0x1200).soundStops = 0 ∧
    (after (svc.setST 1) 0x1200).st = 0 ∧ (after (svc.setST 1) 0x1200).soundStops = 1 := by decide
/-- V-F1: unused memory executed; the first cycle from reset with nothing loaded. -/
theorem test_unused_memory : let t := after r0 0x0000
    t.fault = some ⟨.unrecognizedInstruction, some 0x200, some 0x0000, none⟩ ∧ t.tick = 0 ∧ t.pc = 0x200 := by decide
/-- V-F6. -/
theorem test_fetch_last_byte : (after (r0.setPc 0xFFF) 0x1200).fault =
    some ⟨.fetchOutOfRange, some 0xFFF, none, none⟩ := by decide
/-- V-F9: an odd `pc`. -/
theorem test_fetch_odd : let t := after (r0.setPc 0x201) 0x6142
    t.getV 1 = 0x42 ∧ t.pc = 0x203 := by decide
/-- A write of the reset content removes the entry, so equal memories are equal data. -/
theorem test_memory_canonical : Memory.write (Memory.write [] 0 1) 0 0xF0 = [] := by decide

/-! Witnesses: a state and operands that meet the hypotheses of each statement that has some. -/

theorem witness_ResetPutsEveryValue : ∃ r s, r = hostReset s ∧ s.halted = true := ⟨_, r0.faultInFetch, rfl, rfl⟩
theorem witness_LoadedImageLayout : ∃ image : List Byte, image.length ≤ 3584 ∧ 0 < image.length :=
  ⟨[0x12, 0x00], by decide, by decide⟩
theorem witness_LoadedImageLayout_empty : ∃ image : List Byte, image.length ≤ 3584 ∧ image = [] := ⟨[], by decide, rfl⟩
theorem witness_LoadedImageLayout_beyond : ∃ (image : List Byte) (a : Nat), image.length ≤ 3584 ∧
    0x200 + image.length ≤ a ∧ a ≤ 4095 ∧ image.length = 3583 ∧ a = 4095 :=
  ⟨List.replicate 3583 1, 4095, by rw [List.length_replicate]; decide, by rw [List.length_replicate], by decide,
    by rw [List.length_replicate], rfl⟩
theorem witness_LoadedImageLayout_full : ∃ image : List Byte, image.length ≤ 3584 ∧ 0x200 + image.length = 4096 :=
  ⟨List.replicate 3584 1, by rw [List.length_replicate], by rw [List.length_replicate]⟩
theorem witness_OverlongImageIsRejected : ∃ image : List Byte, 3584 < image.length :=
  ⟨List.replicate 3585 0, by rw [List.length_replicate]; decide⟩
theorem witness_FetchIsBigEndian : ∃ s : State, s.pc.toNat ≤ 4094 ∧ s.pc.toNat = 4094 :=
  ⟨r0.setPc 0xFFE, by decide, by decide⟩
theorem witness_FetchBeyondTopFaults : ∃ s : State, s.halted = false ∧ 4094 < s.pc.toNat ∧ s.pc.toNat = 4095 :=
  ⟨r0.setPc 0xFFF, rfl, by decide, by decide⟩
theorem witness_UnrecognizedWordFaults : ∃ (s : State) (w : Word) (e : DecodeError),
    s.halted = false ∧ s.fetchWord = some w ∧ decodeWord w = .error e := ⟨r0, 0, _, rfl, rfl, rfl⟩
theorem witness_HaltedCycleDoesNothing : ∃ s : State, s.halted = true := ⟨r0.faultInFetch, rfl⟩
theorem witness_StepRunsDecodedInstruction : ∃ (s t : State) (i : Instr), s.halted = false ∧ s.pc.toNat ≤ 4094 ∧
    decodeWord (wordOfBytes (Memory.read s.mem s.pc.toNat) (Memory.read s.mem (s.pc.toNat + 1))) = .ok i ∧
    exec i s = .next t ∧ t.halted = false := ⟨r0.withFetchWord 16 0x1200, _, .jp 0x200, rfl, by decide, rfl, rfl, rfl⟩
theorem witness_FaultsArePrecise : ∃ s t : State, s.halted = false ∧ step s = .next t ∧ t.halted = true :=
  ⟨r0.withFetchWord 16 0x00EE, _, rfl, rfl, rfl⟩
theorem witness_FaultsArePrecise_fetch : ∃ s t : State, s.halted = false ∧ step s = .next t ∧ t.halted = true ∧
    s.fetchWord = none := ⟨r0.setPc 0xFFF, _, rfl, rfl, rfl, rfl⟩
theorem witness_FaultsArePrecise_decode : ∃ s t : State, s.halted = false ∧ step s = .next t ∧ t.halted = true ∧
    s.fetchWord = some 0x0000 := ⟨r0, _, rfl, rfl, rfl, rfl⟩
/-- The code numbers of the fault table (R200). -/
theorem test_fault_numbers : [FaultCode.unrecognizedInstruction, .programImageOverflow, .stackOverflow,
    .stackUnderflow, .memoryOutOfRange, .fetchOutOfRange, .keyIndexOutOfRange].map faultNumber =
    [1, 2, 3, 4, 5, 6, 7] := by decide
theorem witness_TimerPolicyEveryTenthCycle_counts : ∃ (s e : State) (w : Word) (i : Instr), s.halted = false ∧
    s.fetchWord = some w ∧ decodeWord w = .ok i ∧ exec i s = .next e ∧ e.halted = false ∧ e.tick.val = 8 :=
  ⟨{ r0 with tick := 8 }.withFetchWord 16 0x1200, _, 0x1200, _, rfl, rfl, rfl, rfl, rfl, rfl⟩
theorem witness_TimerPolicyEveryTenthCycle_serves : ∃ (s e : State) (w : Word) (i : Instr), s.halted = false ∧
    s.fetchWord = some w ∧ decodeWord w = .ok i ∧ exec i s = .next e ∧ e.halted = false ∧ e.tick.val = 9 :=
  ⟨svc.withFetchWord 16 0x1200, _, 0x1200, _, rfl, rfl, rfl, rfl, rfl, rfl⟩
theorem witness_TimerWriteInServicingCycle_dt : ∃ (s : State) (w : Word), s.halted = false ∧ s.fetchWord = some w ∧
    s.tick.val = 9 ∧ decodeWord w = .ok (.ldDTVx 0) := ⟨svc.withFetchWord 16 0xF015, 0xF015, rfl, rfl, rfl, rfl⟩
theorem witness_TimerWriteInServicingCycle_st : ∃ (s : State) (w : Word), s.halted = false ∧ s.fetchWord = some w ∧
    s.tick.val = 9 ∧ decodeWord w = .ok (.ldSTVx 1) := ⟨svc.withFetchWord 16 0xF118, 0xF118, rfl, rfl, rfl, rfl⟩
theorem witness_TimerWriteInServicingCycle_read : ∃ (s : State) (w : Word), s.halted = false ∧ s.fetchWord = some w ∧
    s.tick.val = 9 ∧ decodeWord w = .ok (.ldVxDT 3) := ⟨svc.withFetchWord 16 0xF307, 0xF307, rfl, rfl, rfl, rfl⟩
theorem witness_Inv : r0.Inv := by
  refine ⟨rfl, by decide, ?_, rfl⟩
  decide
theorem witness_StepKeepsInvariant : ∃ s t : State, s.Inv ∧ step s = .next t ∧ t.halted = false :=
  ⟨r0.withFetchWord 16 0x1200, _, ⟨by decide, by decide, by decide, rfl⟩, rfl, rfl⟩
/-- A host event keeps the invariant: its premise is met by reset. -/
theorem witness_HostOperationsKeepInvariant : ∃ (s : State) (events : List HostEvent), s.Inv ∧
    applyEvents s events ≠ s := ⟨r0, [.keyPress 15], witness_Inv, by decide +kernel⟩
theorem witness_ReachableStatesMeetInvariant : Reachable r0 := .power
/-- A loaded image, a key pressed, one cycle: a reachable state that is still running. -/
theorem witness_ReachableStatesMeetInvariant_loaded : ∃ t : State, Reachable t ∧ t.halted = false ∧
    t.pc = 0x234 ∧ t.held 7 = true ∧ Memory.read t.mem 0x200 = 0x12 :=
  ⟨_, .cycle _ _ (.event _ (.keyPress 7) (.load _ [0x12, 0x34] .power)) rfl, rfl, rfl, by decide, by decide⟩
theorem witness_EncodeOfDecodeIsCanonical : ∃ (w : Word) (i : Instr), decodeWord w = .ok i ∧ canonicalWord w ≠ w :=
  ⟨0x813E, .shlVx 1, rfl, by decide⟩
theorem witness_DecodeFollowsInstructionList : ∃ (w : Word) (r : OpcodeRow), r ∈ opcodeTable ∧
    rowMatches r w = true := ⟨0xF165, ⟨0xF065, 0xF0FF⟩, by decide, by decide⟩
theorem witness_exec_next : ∃ (s t : State), exec (.ldINNN 5) s = .next t ∧ t.i ≠ s.i := ⟨r0, _, rfl, by decide⟩
theorem witness_InstructionsLeaveKeysTickAndSignals : ∃ (s t : State), exec .cls s = .next t ∧
    t.drawPending ≠ s.drawPending := ⟨r0, _, rfl, by decide⟩
theorem witness_IndexStackTimersHaveTheirWriters_stack : ∃ (s t : State), exec (.call 0x300) s = .next t ∧ t.stack ≠ s.stack ∧ t.sp ≠ s.sp :=
  ⟨r0, _, rfl, by decide, by decide⟩
theorem witness_IndexStackTimersHaveTheirWriters_timers : ∃ (s t u : State), exec (.ldDTVx 0) s = .next t ∧ t.dt ≠ s.dt ∧
    exec (.ldSTVx 0) s = .next u ∧ u.st ≠ s.st := ⟨r0.setV 0 1, _, _, rfl, by decide, rfl, by decide⟩
theorem witness_IndexStackTimersHaveTheirWriters_draws : ∃ (s t : State), exec (.rndVxKK 0 0) s = .next t ∧ t.draws ≠ s.draws :=
  ⟨r0, _, rfl, by decide⟩
theorem witness_MemoryWriters : ∃ (s t : State) (a : Nat), exec (.ldBVx 4) s = .next t ∧
    Memory.read t.mem a ≠ Memory.read s.mem a := ⟨(r0.setV 4 255).setI 0x300, _, 0x302, rfl, by decide⟩
theorem witness_MemoryWriters_block : ∃ (s t : State) (a : Nat), exec (.ldMemVx 1) s = .next t ∧
    Memory.read t.mem a ≠ Memory.read s.mem a := ⟨(r0.setV 1 255).setI 0x300, _, 0x301, rfl, by decide⟩
theorem witness_FramebufferWriters : ∃ (s t : State), exec .cls s = .next t ∧ t.fb ≠ s.fb :=
  ⟨r0.setFb (fbFlip 0 3), _, rfl, by decide +kernel⟩
theorem witness_RegistersWrittenOnlyAsListed : ∃ (s t : State) (r : Reg), exec (.addVxVy 1 2) s = .next t ∧
    t.getV r ≠ s.getV r ∧ r = 15 := ⟨(r0.setV 1 0xC8).setV 2 0x64, _, 15, rfl, by decide, rfl⟩
theorem witness_ProgramCannotSeeSoundAndDrawState : ∃ s s' t t' : State, s.SameToProgram s' ∧ s.st ≠ s'.st ∧
    step s = .next t ∧ step s' = .next t' ∧ t.halted = false :=
  ⟨r0.withFetchWord 16 0x2300, (r0.withFetchWord 16 0x2300).setST 7, _, _, rfl, by decide, rfl, rfl, rfl⟩
theorem witness_StaleStackSlotsUnobservable : ∃ s s' t t' : State, s.SameButStaleSlots s' ∧ s.stack ≠ s'.stack ∧
    step s = .next t ∧ step s' = .next t' ∧ t.sp.val = 1 :=
  ⟨r0.withFetchWord 16 0x2300, (stacked 0 0 7).withFetchWord 16 0x2300, _, _,
    ⟨rfl, fun _ h => absurd h (Nat.not_lt_zero _)⟩, by decide, rfl, rfl, rfl⟩
theorem witness_CallPushesReturnAddress : ∃ s : State, s.sp.val < 16 ∧ s.sp.val = 15 := ⟨stacked 15 0 0, by decide, rfl⟩
theorem witness_CallThenReturnComesBack : ∃ s u : State, s.sp.val < 16 ∧ s.sp.val = 0 ∧ u.v ≠ s.v :=
  ⟨r0, r0.setV 3 1, by decide, rfl, by decide⟩
theorem witness_ReturnPopsAddress : ∃ (s : State) (j : Fin 16), s.sp.val = j.val + 1 ∧ j.val = 15 :=
  ⟨stacked 16 0 0, 15, rfl, rfl⟩
theorem witness_ReturnCompletes : ∃ s : State, s.sp.val ≠ 0 ∧ s.sp.val = 1 := ⟨stacked 1 0 0x204, by decide, rfl⟩
theorem witness_StackFaultsAreTaken : (∃ s : State, s.sp.val = 16) ∧ ∃ s : State, s.sp.val = 0 :=
  ⟨⟨stacked 16 0 0, rfl⟩, ⟨r0, rfl⟩⟩
theorem witness_AddSetsCarry : ∃ (x y : Reg) (s : State), x ≠ 15 ∧ y ≠ 15 ∧
    (s.getV x).toNat + (s.getV y).toNat = 256 :=
  ⟨0, 14, (r0.setV 0 0xFF).setV 14 1, by decide, by decide, by decide⟩
theorem witness_SubtractionsSetNotBorrow : ∃ (x y : Reg) (s : State), x ≠ 15 ∧ y ≠ 15 ∧
    (s.getV x).toNat + 1 = (s.getV y).toNat := ⟨0, 14, r0.setV 14 1, by decide, by decide, by decide⟩
theorem witness_ShiftsCaptureShiftedOutBit : ∃ (x : Reg) (s : State), x ≠ 15 ∧ (s.getV x).toNat = 0x81 :=
  ⟨14, r0.setV 14 0x81, by decide, by decide⟩
theorem witness_FlagInstructionsOnVF : ∃ (y : Reg) (s : State), y ≠ 15 ∧ (s.getV y).toNat + (s.getV 15).toNat = 256 :=
  ⟨14, (r0.setV 14 0xFF).setV 15 1, by decide, by decide⟩
theorem witness_BcdStoresDigits : ∃ s : State, s.i.toNat + 2 ≤ 4095 ∧ s.i.toNat + 2 = 4095 :=
  ⟨r0.setI 0xFFD, by decide, by decide⟩
/-- For BlockStoreWritesRegisters, BlockLoadFillsRegisters, BlockStoreThenLoadRestores. -/
theorem witness_BlockTransfers : ∃ (x : Reg) (s : State), 1 ≤ x.val ∧ s.i.toNat + x.val ≤ 4095 ∧
    s.i.toNat + x.val = 4095 := ⟨15, r0.setI 0xFF0, by decide, by decide, by decide⟩
/-- X = 0, a fetch whose first byte is the one stored, at the top of memory. -/
theorem witness_StoredBytesAreFetched_first : ∃ (x k : Reg) (s : State) (p : Word), p.toNat ≤ 4094 ∧ x.val = 0 ∧
    s.i.toNat + x.val ≤ 4095 ∧ k.val ≤ x.val ∧ p.toNat = s.i.toNat + k.val ∧ p.toNat = 4094 :=
  ⟨0, 0, r0.setI 0xFFE, 0xFFE, by decide, rfl, by decide, by decide, by decide, by decide⟩
/-- The last byte of the longest block, fetched as the second byte of a word. -/
theorem witness_StoredBytesAreFetched_second : ∃ (x k : Reg) (s : State) (p : Word), p.toNat ≤ 4094 ∧
    s.i.toNat + x.val ≤ 4095 ∧ k.val ≤ x.val ∧ p.toNat + 1 = s.i.toNat + k.val ∧ k.val = 15 :=
  ⟨15, 15, r0.setI 0xFF0, 0xFFE, by decide, by decide, by decide, by decide, rfl⟩
/-- Every clause for LD B: the fetch at, one below and one and two above `I`, with `I` as high as it may be. -/
theorem witness_StoredBytesAreFetched_bcd : ∃ (s : State) (p q r u : Word), s.i.toNat + 2 ≤ 4095 ∧
    q.toNat = s.i.toNat ∧ r.toNat = s.i.toNat + 1 ∧ p.toNat + 1 = s.i.toNat ∧ r.toNat ≤ 4094 ∧
    (r0.setI 0xFFC).i.toNat + 2 = u.toNat ∧ u.toNat ≤ 4094 :=
  ⟨r0.setI 0xFFD, 0xFFC, 0xFFD, 0xFFE, 0xFFE, by decide, by decide, by decide, by decide, by decide, by decide,
    by decide⟩
/-- The very next fetch: LD [I],V0 with `I` at the `pc` it leaves. -/
theorem test_store_then_fetch : let t := after ((r0.setV 0 0x6A).setI 0x202) 0xF055
    t.fetchWord = some 0x6A00 ∧ t.pc = 0x202 := by decide
theorem witness_MemoryRangeFaultsAreTaken : ∃ (x : Reg) (n : Nibble) (s : State), s.i.toNat + 2 > 4095 ∧
    s.i.toNat + x.val > 4095 ∧ 1 ≤ n.toNat ∧ s.i.toNat + n.toNat - 1 > 4095 :=
  ⟨2, 3, r0.setI 0xFFE, by decide, by decide, by decide, by decide⟩
theorem witness_DrawXorsSprite : ∃ (x y : Reg) (n : Nibble) (s : State) (q : FbCell),
    s.i.toNat + n.toNat - 1 ≤ 4095 ∧ s.SpriteLights x y n q ∧ s.pixel q = true :=
  ⟨0, 0, 1, r0.setFb (fbFlip 0 0), 0, by decide, ⟨0, 0, by decide, by decide, by decide, by decide⟩, by decide +kernel⟩
theorem witness_DrawXorsSprite_none : ∃ (n : Nibble) (s : State), n.toNat = 0 ∧ 4095 < s.i.toNat :=
  ⟨0, r0.setI 0xFFFF, by decide, by decide⟩
theorem witness_DrawTwiceRestoresScreen : ∃ (x y : Reg) (n : Nibble) (s : State) (q : FbCell),
    s.i.toNat + n.toNat - 1 ≤ 4095 ∧ s.SpriteLights x y n q ∧ s.pixel q = false :=
  ⟨0, 0, 1, r0, 0, by decide, ⟨0, 0, by decide, by decide, by decide, by decide⟩, by decide +kernel⟩
theorem witness_KeySkips : ∃ (x : Reg) (k : Key) (s : State), (s.getV x).toNat = k.val ∧ k = 15 ∧ s.held k = true :=
  ⟨5, 15, (r0.setV 5 15).setKey 15 true, by decide, rfl, by decide⟩
theorem witness_KeyIndexFaultsAreTaken : ∃ (x : Reg) (s : State), 15 < (s.getV x).toNat ∧ (s.getV x).toNat = 16 :=
  ⟨5, r0.setV 5 16, by decide, by decide⟩
theorem witness_WaitForKeyTakesLowest_none : ∃ s : State, ∀ k, s.held k = false := ⟨r0, by decide⟩
theorem witness_WaitForKeyTakesLowest_some : ∃ (s : State) (k : Key), s.held k = true ∧
    (∀ j : Key, j.val < k.val → s.held j = false) ∧ k = 3 :=
  ⟨(r0.setKey 7 true).setKey 3 true, 3, by decide, by decide, rfl⟩

end Sys2Proof.Tests
end

section
/-! Proofs about the state after Reset and a load (R24, R243): the load's own rules, and what they give for
memory. -/
namespace Sys2Proof.Machine

/-- Above the font, memory after Reset reads 0 (R24, R242). -/
theorem Memory.read_reset_of_font_le {a : Nat} (h : 0x50 ≤ a) : Memory.read State.reset.mem a = 0 :=
  List.getD_eq_default (l := Memory.font) (d := 0) h

/-- An image that fits changes memory alone (R243). -/
theorem loadProgram_of_fits {image : List Byte} (h : image.length ≤ 3584) (s : State) :
    loadProgram image s = s.setMem (Memory.writeN s.mem 0x200 image) :=
  if_pos (decide_eq_true h)

@[simp] theorem loadProgram_nil (s : State) : loadProgram [] s = s := rfl

/-- The one rule of a loaded memory: the image's byte inside it, every other address as before (R243). -/
theorem Memory.read_loadProgram {image : List Byte} (h : image.length ≤ 3584) (s : State) (a : Nat) :
    Memory.read (loadProgram image s).mem a =
      if 0x200 ≤ a ∧ a < 0x200 + image.length then image.getD (a - 0x200) 0 else Memory.read s.mem a := by
  rw [loadProgram_of_fits h, State.setMem_mem, Memory.read_writeN _ _ _ _ (by omega)]

theorem Memory.read_loadProgram_outside {image : List Byte} (h : image.length ≤ 3584) (s : State) {a : Nat}
    (ha : a < 0x200 ∨ 0x200 + image.length ≤ a) :
    Memory.read (loadProgram image s).mem a = Memory.read s.mem a := by
  rw [Memory.read_loadProgram h, if_neg (by omega)]

/-- With nothing loaded the first cycle fetches 0x0000, which no row of the table matches (R201). -/
theorem step_reset : step State.reset = .next (State.reset.faultInDecode 0x0000) := rfl

/-- Settles O3: outside the image a loaded memory reads as after Reset, inside it the image (R24, R243). -/
theorem loadedImageLayout : Obligations.LoadedImageLayout := by
  intro image hfit
  refine ⟨fun a ha => ?font, fun a hlo hhi => ?gap, fun k hk => ?image, fun a hlo _ => ?beyond, ?frame, ?empty⟩
  case font => exact Memory.read_loadProgram_outside hfit _ (.inl (by omega))
  case gap => exact (Memory.read_loadProgram_outside hfit _ (.inl hhi)).trans (Memory.read_reset_of_font_le hlo)
  case image => rw [Memory.read_loadProgram hfit, if_pos (by omega), Nat.add_sub_cancel_left]
  case beyond =>
    exact (Memory.read_loadProgram_outside hfit _ (.inr hlo)).trans (Memory.read_reset_of_font_le (by omega))
  case frame => rw [loadProgram_of_fits hfit]; rfl
  case empty =>
    rintro rfl
    rw [loadProgram_nil]
    exact ⟨_, step_reset, rfl, rfl⟩

end Sys2Proof.Machine
end

section
/-! Proof about the cycle's fetch (R42). -/
namespace Sys2Proof.Machine

/-- Settles O6: below the top the fetch succeeds, and the word it composes has the byte at `pc` as its high
byte, whatever the parity of `pc` (R42). -/
theorem fetchIsBigEndian : Obligations.FetchIsBigEndian := by
  intro s hpc
  exact ⟨_, State.fetchWord_eq_some.2 ⟨hpc, rfl⟩, toNat_wordOfBytes _ _⟩

end Sys2Proof.Machine
end

section
/-! Proofs about control transfer (R101, R103 to R106): the handlers' equations, what a skip does to `pc`, and
that neither a jump nor a skip touches anything else. -/
namespace Sys2Proof.Machine

theorem exec_jp (nnn : Addr) (s : State) : exec (.jp nnn) s = .next (s.setPc (addrOperand nnn)) := rfl

theorem exec_seVxKK (x : Reg) (kk : Byte) (s : State) :
    exec (.seVxKK x kk) s = .next (s.skipIf (s.getV x == kk)) := rfl

theorem exec_sneVxKK (x : Reg) (kk : Byte) (s : State) :
    exec (.sneVxKK x kk) s = .next (s.skipIf (s.getV x != kk)) := rfl

theorem exec_seVxVy (x y : Reg) (s : State) :
    exec (.seVxVy x y) s = .next (s.skipIf (s.getV x == s.getV y)) := rfl

theorem exec_sneVxVy (x y : Reg) (s : State) :
    exec (.sneVxVy x y) s = .next (s.skipIf (s.getV x != s.getV y)) := rfl

theorem State.setPc_frame (s : State) (w : Word) : { s.setPc w with pc := s.pc } = s := rfl

theorem State.skipIf_frame (s : State) (c : Bool) : { s.skipIf c with pc := s.pc } = s := rfl

/-- A skip on equality compares the two bytes as numbers (R103, R105). -/
theorem State.skipIf_beq_pc (s : State) (a b : Byte) :
    (s.skipIf (a == b)).pc = s.pc + BitVec.ofNat 16 (if a.toNat = b.toNat then 4 else 2) := by
  by_cases h : a = b
  · rw [beq_iff_eq.2 h, if_pos (BitVec.toNat_inj.2 h)]; rfl
  · rw [beq_false_of_ne h, if_neg (mt BitVec.toNat_inj.1 h)]; rfl

/-- A skip on inequality is the other outcome of the same comparison (R104, R106). -/
theorem State.skipIf_bne_pc (s : State) (a b : Byte) :
    (s.skipIf (a != b)).pc = s.pc + BitVec.ofNat 16 (if a.toNat = b.toNat then 2 else 4) := by
  by_cases h : a = b
  · rw [bne_eq_false_iff_eq.2 h, if_pos (BitVec.toNat_inj.2 h)]; rfl
  · rw [bne_iff_ne.2 h, if_neg (mt BitVec.toNat_inj.1 h)]; rfl

/-- Settles O30: the jump is one write of `pc`, and widening NNN to 16 bits keeps its value (R101). -/
theorem jumpSetsPc : Obligations.JumpSetsPc := by
  intro nnn s
  exact ⟨_, exec_jp nnn s, addrOperand_toNat nnn, State.setPc_frame s _⟩

/-- Settles O36: the skips on Vx and KK, each by its handler's equation and the rule of its comparison (R103,
R104). -/
theorem immediateSkips : Obligations.ImmediateSkips := by
  intro x kk s
  constructor
  case left => exact ⟨_, exec_seVxKK x kk s, State.skipIf_frame s _, State.skipIf_beq_pc s _ _⟩
  case right => exact ⟨_, exec_sneVxKK x kk s, State.skipIf_frame s _, State.skipIf_bne_pc s _ _⟩

/-- Settles O37: the same rules with Vy for KK; with X = Y a register is compared with itself (R105, R106). -/
theorem registerSkips : Obligations.RegisterSkips := by
  intro x y s
  constructor
  case left =>
    refine ⟨_, exec_seVxVy x y s, State.skipIf_frame s _, State.skipIf_beq_pc s _ _, ?_⟩
    rintro rfl
    rw [State.skipIf_beq_pc, if_pos rfl]; rfl
  case right =>
    refine ⟨_, exec_sneVxVy x y s, State.skipIf_frame s _, State.skipIf_bne_pc s _ _, ?_⟩
    rintro rfl
    rw [State.skipIf_bne_pc, if_pos rfl]; rfl

end Sys2Proof.Machine
end

section
/-! Proofs about register load, immediate add and logic (R120 to R125): the handlers' equations, and the rule of
the one state change all six make, a write of Vx followed by the sequential advance. -/
namespace Sys2Proof.Machine

theorem exec_ldVxKK (x : Reg) (kk : Byte) (s : State) :
    exec (.ldVxKK x kk) s = .next (s.setV x kk).advance := rfl

theorem exec_addVxKK (x : Reg) (kk : Byte) (s : State) :
    exec (.addVxKK x kk) s = .next (s.setV x (s.getV x + kk)).advance := rfl

theorem exec_ldVxVy (x y : Reg) (s : State) :
    exec (.ldVxVy x y) s = .next (s.setV x (s.getV y)).advance := rfl

theorem exec_orVxVy (x y : Reg) (s : State) :
    exec (.orVxVy x y) s = .next (s.setV x (s.getV x ||| s.getV y)).advance := rfl

theorem exec_andVxVy (x y : Reg) (s : State) :
    exec (.andVxVy x y) s = .next (s.setV x (s.getV x &&& s.getV y)).advance := rfl

theorem exec_xorVxVy (x y : Reg) (s : State) :
    exec (.xorVxVy x y) s = .next (s.setV x (s.getV x ^^^ s.getV y)).advance := rfl

theorem State.getV_setV_advance_same (s : State) (x : Reg) (b : Byte) : (s.setV x b).advance.getV x = b := by
  rw [State.getV_advance, State.getV_setV, if_pos rfl]

/-- A register write with its advance touches no other register, VF included, and nothing else but `pc`. -/
theorem State.setV_advance_frame (s : State) (x : Reg) (b : Byte) :
    (∀ z, z ≠ x → (s.setV x b).advance.getV z = s.getV z) ∧ (s.setV x b).advance.pc = s.pc + 2 ∧
      { (s.setV x b).advance with v := s.v, pc := s.pc } = s := by
  refine ⟨fun z hz => ?others, rfl, rfl⟩
  case others => rw [State.getV_advance, State.getV_setV, if_neg hz]

/-- Settles O38: each form is one write of Vx and the advance; byte addition is addition modulo 256 (R120, R121,
R122). -/
theorem loadsAndAddImmediate : Obligations.LoadsAndAddImmediate := by
  intro x y kk s
  refine ⟨⟨_, exec_ldVxKK x kk s, ?ldKK, State.setV_advance_frame s x _⟩,
    ⟨_, exec_addVxKK x kk s, ?addKK, State.setV_advance_frame s x _⟩,
    ⟨_, exec_ldVxVy x y s, ?ldVy, State.setV_advance_frame s x _⟩⟩
  case ldKK => exact State.getV_setV_advance_same s x kk
  case addKK => rw [State.getV_setV_advance_same]; exact BitVec.toNat_add _ _
  case ldVy => exact State.getV_setV_advance_same s x _

/-- Settles O39: the same one write of Vx, whose value as a number is the bitwise operation on the numbers of the
two bytes (R123, R124, R125). -/
theorem logicOperations : Obligations.LogicOperations := by
  intro x y s
  refine ⟨⟨_, exec_orVxVy x y s, ?or, State.setV_advance_frame s x _⟩,
    ⟨_, exec_andVxVy x y s, ?and, State.setV_advance_frame s x _⟩,
    ⟨_, exec_xorVxVy x y s, ?xor, State.setV_advance_frame s x _⟩⟩
  case or => rw [State.getV_setV_advance_same, BitVec.toNat_or]
  case and => rw [State.getV_setV_advance_same, BitVec.toNat_and]
  case xor => rw [State.getV_setV_advance_same, BitVec.toNat_xor]

end Sys2Proof.Machine
end

section
/-! Proof about CLS (R160): the handler's equation and the frame of the state it leaves. -/
namespace Sys2Proof.Machine

theorem exec_cls (s : State) : exec .cls s = .next ((s.setFb 0).setDrawPending true).advance := rfl

/-- A new framebuffer with its draw flag and the advance changes `fb`, `draw_pending` and `pc` alone. -/
theorem State.setFb_setDrawPending_advance_frame (s : State) (f : BitVec 2048) (b : Bool) :
    { ((s.setFb f).setDrawPending b).advance with fb := s.fb, drawPending := s.drawPending, pc := s.pc } = s := rfl

/-- Settles O53: the framebuffer CLS sets is the zero one, whose every cell is 0; the flag is set whatever the
screen held (R160). -/
theorem clearScreen : Obligations.ClearScreen := by
  intro s
  refine ⟨_, exec_cls s, fun p => ?cells, rfl, rfl, State.setFb_setDrawPending_advance_frame s _ _⟩
  case cells => rw [State.pixel, State.advance_fb, State.setDrawPending_fb, State.setFb_fb, fbCell_zero]

end Sys2Proof.Machine
end

section
/-! Proof about the timer transfers (R172, R174, R175): the handlers' equations and the frames of a timer write
with its advance. -/
namespace Sys2Proof.Machine

theorem exec_ldVxDT (x : Reg) (s : State) : exec (.ldVxDT x) s = .next (s.setV x s.dt).advance := rfl

theorem exec_ldDTVx (x : Reg) (s : State) : exec (.ldDTVx x) s = .next (s.setDT (s.getV x)).advance := rfl

theorem exec_ldSTVx (x : Reg) (s : State) : exec (.ldSTVx x) s = .next (s.setST (s.getV x)).advance := rfl

/-- A delay timer write with its advance leaves all but `dt` and `pc`, so `tick` and the signal count too. -/
theorem State.setDT_advance_frame (s : State) (b : Byte) :
    { (s.setDT b).advance with dt := s.dt, pc := s.pc } = s := rfl

/-- A sound timer write with its advance leaves all but `st` and `pc`: SoundStop belongs to the timer service. -/
theorem State.setST_advance_frame (s : State) (b : Byte) :
    { (s.setST b).advance with st := s.st, pc := s.pc } = s := rfl

/-- Settles O59: the first form is one write of Vx, the other two one write of a timer, each with the advance
(R172, R174, R175). -/
theorem timerTransfers : Obligations.TimerTransfers := by
  intro x s
  refine ⟨⟨_, exec_ldVxDT x s, ?readDT, State.setV_advance_frame s x _⟩,
    ⟨_, exec_ldDTVx x s, ?writeDT, State.advance_pc _, State.setDT_advance_frame s _⟩,
    ⟨_, exec_ldSTVx x s, ?writeST, State.advance_pc _, State.setST_advance_frame s _⟩⟩
  case readDT => exact State.getV_setV_advance_same s x _
  case writeDT => rw [State.advance_dt, State.setDT_dt]
  case writeST => rw [State.advance_st, State.setST_st]

end Sys2Proof.Machine
end

section
/-! Proof about the timer policy in a cycle (R210 to R212): what a cycle whose handler took no fault comes to, and
the policy's two cases. -/
namespace Sys2Proof.Machine

/-- A cycle that fetches and decodes is its handler and what follows it (R60). -/
theorem step_of_exec {s e : State} {w : Word} {i : Instr} (hs : s.halted = false) (hf : s.fetchWord = some w)
    (hd : decodeWord w = .ok i) (hx : exec i s = .next e) : step s = .next (finishCycle e) := by
  simp only [step, hs, hf, hd, hx, Bool.false_eq_true, if_false]

theorem finishCycle_of_running {s : State} (h : s.halted = false) : finishCycle s = timerPolicy s := by
  rw [finishCycle, h]; exact if_neg Bool.false_ne_true

/-- In the first nine cycles the policy only counts (R210). -/
theorem timerPolicy_of_lt {s : State} (h : s.tick.val < 9) :
    timerPolicy s = { s with tick := ⟨s.tick.val + 1, Nat.succ_lt_succ h⟩ } :=
  dif_pos (Nat.succ_lt_succ h)

/-- In the tenth cycle the count starts again and both timers are serviced (R210). -/
theorem timerPolicy_of_eq {s : State} (h : s.tick.val = 9) :
    timerPolicy s = serviceST (serviceDT { s with tick := 0 }) :=
  dif_neg (by omega)

/-- A service takes 1 from a timer that is not 0: subtraction of naturals, with no wrap to 255 (R211, R212). -/
theorem toNat_decrement_if_pos (b : Byte) : (if 0 < b.toNat then b - 1 else b).toNat = b.toNat - 1 := by
  split
  case isTrue h => exact BitVec.toNat_sub_of_le (BitVec.le_def.2 h)
  case isFalse h => omega

@[simp] theorem serviceDT_dt_toNat (s : State) : (serviceDT s).dt.toNat = s.dt.toNat - 1 := by
  rw [serviceDT_eq]; exact toNat_decrement_if_pos s.dt

@[simp] theorem serviceST_st_toNat (s : State) : (serviceST s).st.toNat = s.st.toNat - 1 := by
  rw [serviceST_eq]; exact toNat_decrement_if_pos s.st

/-- SoundStop is emitted exactly when `ST` is 0 after its service, so when it was 1 or 0 before (R212). -/
@[simp] theorem serviceST_soundStops (s : State) :
    (serviceST s).soundStops = s.soundStops + (if s.st.toNat ≤ 1 then 1 else 0) := by
  rw [serviceST_eq]
  by_cases h : s.st.toNat ≤ 1
  · simp only [if_pos h]
  · simp only [if_neg h, Nat.add_zero]

/-- The tenth cycle's policy, field by field: each service leaves what the other one reads and writes. -/
theorem timerPolicy_serves {s : State} (h : s.tick.val = 9) :
    (timerPolicy s).tick.val = 0 ∧ (timerPolicy s).dt.toNat = s.dt.toNat - 1 ∧
      (timerPolicy s).st.toNat = s.st.toNat - 1 ∧
      (timerPolicy s).soundStops = s.soundStops + (if s.st.toNat ≤ 1 then 1 else 0) := by
  rw [timerPolicy_of_eq h]
  refine ⟨?tick, ?dt, ?st, ?stops⟩
  case tick => rw [serviceST_eq, serviceDT_eq]; rfl
  case dt => rw [serviceST_eq]; exact serviceDT_dt_toNat _
  case st => rw [serviceST_st_toNat, serviceDT_eq]
  case stops => rw [serviceST_soundStops, serviceDT_eq]

/-- Settles O13: such a cycle is the handler and then the policy, which writes the four fields of its frame, by
counting while `tick` is below 9 and by servicing at 9 (R210, R211, R212). -/
theorem timerPolicyEveryTenthCycle : Obligations.TimerPolicyEveryTenthCycle := by
  intro s e w i hs hf hd hx he
  refine ⟨timerPolicy e, ?step, timerPolicy_frame e, fun h => ?counts, timerPolicy_serves⟩
  case step => rw [step_of_exec hs hf hd hx, finishCycle_of_running he]
  case counts => rw [timerPolicy_of_lt h]; exact ⟨rfl, rfl, rfl, rfl⟩

end Sys2Proof.Machine
end

section
/-! The handlers, said once: the equation of each one that the sections above do not have, and everything a
handler can do to a state. The whole-machine proofs below go through `exec_effect` and unfold no handler. -/
namespace Sys2Proof.Machine

/-! Handlers that cannot fault. -/

theorem exec_jpV0NNN (nnn : Addr) (s : State) :
    exec (.jpV0NNN nnn) s = .next (s.setPc (indexedTarget nnn (s.getV 0))) := rfl

theorem exec_addVxVy (x y : Reg) (s : State) :
    exec (.addVxVy x y) s =
      .next (s.setFlagThenV (carryFlag (s.getV x) (s.getV y)) x (s.getV x + s.getV y)).advance := rfl

theorem exec_subVxVy (x y : Reg) (s : State) :
    exec (.subVxVy x y) s =
      .next (s.setFlagThenV (notBorrowFlag (s.getV x) (s.getV y)) x (s.getV x - s.getV y)).advance := rfl

theorem exec_shrVx (x : Reg) (s : State) :
    exec (.shrVx x) s = .next (s.setFlagThenV (shiftedOutRight (s.getV x)) x (s.getV x >>> 1)).advance := rfl

theorem exec_subnVxVy (x y : Reg) (s : State) :
    exec (.subnVxVy x y) s =
      .next (s.setFlagThenV (notBorrowFlag (s.getV y) (s.getV x)) x (s.getV y - s.getV x)).advance := rfl

theorem exec_shlVx (x : Reg) (s : State) :
    exec (.shlVx x) s = .next (s.setFlagThenV (shiftedOutLeft (s.getV x)) x (s.getV x <<< 1)).advance := rfl

theorem exec_rndVxKK (x : Reg) (kk : Byte) (s : State) :
    exec (.rndVxKK x kk) s =
      .next (s.draw8.2.setV x (Config.freeByte s.draws &&& kk)).advance := rfl

theorem exec_ldINNN (nnn : Addr) (s : State) :
    exec (.ldINNN nnn) s = .next (s.setI (addrOperand nnn)).advance := rfl

theorem exec_addIVx (x : Reg) (s : State) :
    exec (.addIVx x) s = .next (s.setI (indexPlus s.i (s.getV x))).advance := rfl

theorem exec_ldFVx (x : Reg) (s : State) :
    exec (.ldFVx x) s = .next (s.setI (glyphAddress (s.getV x))).advance := rfl

/-! LD Vx,K. -/

theorem exec_ldVxK_of_none {x : Reg} {s : State} (h : s.lowestHeld = none) : exec (.ldVxK x) s = .next s := by
  simp only [exec, execLdVxK, h]

theorem exec_ldVxK_of_some {x : Reg} {s : State} {k : Key} (h : s.lowestHeld = some k) :
    exec (.ldVxK x) s = .next (s.setV x (keyByte k)).advance := by
  simp only [exec, execLdVxK, h]

/-! Handlers that check before they act: the check and its two outcomes in one equation each. -/

/-- CALL's effect where a slot is free (R102). -/
def State.enter (s : State) (nnn : Addr) (h : s.sp.val < 16) : State :=
  { s with
    stack := s.stack.set s.sp.val s.returnAddress h
    sp := ⟨s.sp.val + 1, Nat.succ_lt_succ h⟩
    pc := addrOperand nnn }

theorem exec_call (nnn : Addr) (s : State) :
    exec (.call nnn) s =
      if h : s.sp.val < 16 then .next (s.enter nnn h) else faultIn .stackOverflow (.call nnn) s := by
  by_cases h : s.sp.val < 16
  · simp only [exec, execCall, State.push?, dif_pos h]; rfl
  · simp only [exec, execCall, State.push?, dif_neg h]

/-- RET's effect where the top slot is `j` (R100). -/
def State.leave (s : State) (j : Fin 16) : State :=
  { s with sp := ⟨j.val, Nat.lt_succ_of_lt j.isLt⟩, pc := s.stack.get j }

theorem exec_ret (s : State) :
    exec .ret s =
      if s.sp.val = 0 then faultIn .stackUnderflow .ret s
      else .next (s.leave ⟨s.sp.val - 1, by have := s.sp.isLt; omega⟩) := by
  by_cases h : s.sp.val = 0
  · simp only [exec, execRet, State.pop?, dif_pos h, if_pos h]
  · simp only [exec, execRet, State.pop?, dif_neg h, if_neg h]; rfl

theorem exec_skpVx (x : Reg) (s : State) :
    exec (.skpVx x) s =
      if h : (s.getV x).toNat < 16 then .next (s.skipIf (s.held ⟨(s.getV x).toNat, h⟩))
      else faultIn .keyIndexOutOfRange (.skpVx x) s := by
  by_cases h : (s.getV x).toNat < 16
  · simp only [exec, execSkpVx, keyOfValue, dif_pos h]
  · simp only [exec, execSkpVx, keyOfValue, dif_neg h]

theorem exec_sknpVx (x : Reg) (s : State) :
    exec (.sknpVx x) s =
      if h : (s.getV x).toNat < 16 then .next (s.skipIf (!s.held ⟨(s.getV x).toNat, h⟩))
      else faultIn .keyIndexOutOfRange (.sknpVx x) s := by
  by_cases h : (s.getV x).toNat < 16
  · simp only [exec, execSknpVx, keyOfValue, dif_pos h]
  · simp only [exec, execSknpVx, keyOfValue, dif_neg h]

/-- A checked write, whole or not at all (R44). -/
theorem State.writeRange?_eq (s : State) (a : Nat) {bs : List Byte} (hbs : bs.length ≠ 0) :
    s.writeRange? a bs =
      if a + bs.length ≤ 4096 then some (s.setMem (Memory.writeN s.mem a bs)) else none := by
  split
  case isTrue h => exact State.writeRange?_eq_some.2 ⟨.inr h, rfl⟩
  case isFalse h => exact State.writeRange?_eq_none.2 ⟨hbs, by omega⟩

/-- A checked read, whole or not at all; a range of no bytes passes at every address (R44). -/
theorem State.readRange?_eq (s : State) (a n : Nat) :
    s.readRange? a n = if n = 0 ∨ a + n ≤ 4096 then some (Memory.readN s.mem a n) else none := by
  split
  case isTrue h => exact State.readRange?_eq_some.2 ⟨h, rfl⟩
  case isFalse h => exact State.readRange?_eq_none.2 (by omega)

/-- The effect of the two stores where their bytes fit (R143, R144). -/
def State.store (s : State) (bs : List Byte) : State :=
  (s.setMem (Memory.writeN s.mem s.i.toNat bs)).advance

theorem exec_ldBVx (x : Reg) (s : State) :
    exec (.ldBVx x) s =
      if s.i.toNat + 3 ≤ 4096 then .next (s.store (bcdDigits (s.getV x)))
      else faultIn .memoryOutOfRange (.ldBVx x) s := by
  simp only [exec, execLdBVx, State.base, State.writeRange?_eq s _ (bs := bcdDigits (s.getV x)) (by simp),
    length_bcdDigits]
  by_cases h : s.i.toNat + 3 ≤ 4096
  · simp only [h, if_true]; rfl
  · simp only [h, if_false]

theorem exec_ldMemVx (x : Reg) (s : State) :
    exec (.ldMemVx x) s =
      if s.i.toNat + (x.val + 1) ≤ 4096 then .next (s.store (s.regBlock x))
      else faultIn .memoryOutOfRange (.ldMemVx x) s := by
  simp only [exec, execLdMemVx, State.base, State.writeRange?_eq s _ (bs := s.regBlock x) (by simp),
    State.length_regBlock]
  by_cases h : s.i.toNat + (x.val + 1) ≤ 4096
  · simp only [h, if_true]; rfl
  · simp only [h, if_false]

theorem exec_ldVxMem (x : Reg) (s : State) :
    exec (.ldVxMem x) s =
      if s.i.toNat + (x.val + 1) ≤ 4096 then
        .next (s.setRegs (fillRegs 0 (Memory.readN s.mem s.i.toNat (x.val + 1)) s.v)).advance
      else faultIn .memoryOutOfRange (.ldVxMem x) s := by
  simp only [exec, execLdVxMem, State.base, State.readRange?_eq, Nat.add_one_ne_zero, false_or]
  by_cases h : s.i.toNat + (x.val + 1) ≤ 4096
  · simp only [h, if_true]
  · simp only [h, if_false]

/-- The framebuffer and the collision flag that DRW computes (R161). -/
def State.blit (s : State) (x y : Reg) (n : Nibble) : Blit :=
  drawRows (s.getV x) (s.getV y) 0 (Memory.readN s.mem s.i.toNat n.toNat) ⟨s.fb, false⟩

/-- The effect of DRW on a state, from what it computed (R161). -/
def State.present (s : State) (d : Blit) : State :=
  (((s.setV vf (flagByte d.hit)).setFb d.fb).setDrawPending true).advance

theorem exec_drwVxVyN (x y : Reg) (n : Nibble) (s : State) :
    exec (.drwVxVyN x y n) s =
      if n.toNat = 0 ∨ s.i.toNat + n.toNat ≤ 4096 then .next (s.present (s.blit x y n))
      else faultIn .memoryOutOfRange (.drwVxVyN x y n) s := by
  simp only [exec, execDrwVxVyN, State.base, State.readRange?_eq]
  by_cases h : n.toNat = 0 ∨ s.i.toNat + n.toNat ≤ 4096
  · simp only [h, if_true]; rfl
  · simp only [h, if_false]

/-! Everything a handler can do. -/

/-- The fault an instruction's handler can take (R200). -/
def handlerFault? : Instr → Option FaultCode
  | .call _ => some .stackOverflow
  | .ret => some .stackUnderflow
  | .ldBVx _ | .ldMemVx _ | .ldVxMem _ | .drwVxVyN _ _ _ => some .memoryOutOfRange
  | .skpVx _ | .sknpVx _ => some .keyIndexOutOfRange
  | _ => none

/-- The register of an instruction that writes one general register and no flag (R12). -/
def plainDestination? : Instr → Option Reg
  | .ldVxKK x _ | .addVxKK x _ | .ldVxVy x _ | .orVxVy x _ | .andVxVy x _ | .xorVxVy x _
  | .ldVxDT x | .ldVxK x => some x
  | _ => none

/-- The register of an instruction that writes VF and then one general register (R13). -/
def flaggedDestination? : Instr → Option Reg
  | .addVxVy x _ | .subVxVy x _ | .subnVxVy x _ | .shrVx x | .shlVx x => some x
  | _ => none

/-- The width in bytes of what a store writes (R143, R144). -/
def storeWidth? : Instr → Option Nat
  | .ldBVx _ => some 3
  | .ldMemVx x => some (x.val + 1)
  | _ => none

/-- LD I, ADD I and LD F. -/
def writesIndex : Instr → Bool
  | .ldINNN _ | .addIVx _ | .ldFVx _ => true
  | _ => false

/-- What instruction `i` can make of `s`: its fault, or one of the state changes the handlers share. Which values
are written is left to the equations above. -/
inductive Effect (s : State) : Instr → State → Prop
  | fault {i : Instr} {code : FaultCode} (h : handlerFault? i = some code) :
      Effect s i (s.raiseFault code (some (encode i)))
  | wait (x : Reg) : Effect s (.ldVxK x) s
  | skip {i : Instr} (c : Bool) : Effect s i (s.skipIf c)
  | jump (nnn : Addr) : Effect s (.jp nnn) (s.setPc (addrOperand nnn))
  | indexedJump (nnn : Addr) : Effect s (.jpV0NNN nnn) (s.setPc (indexedTarget nnn (s.getV 0)))
  | enter (nnn : Addr) (h : s.sp.val < 16) : Effect s (.call nnn) (s.enter nnn h)
  | leave (j : Fin 16) : Effect s .ret (s.leave j)
  | plain {i : Instr} {x : Reg} (b : Byte) (h : plainDestination? i = some x) : Effect s i (s.setV x b).advance
  | flagged {i : Instr} {x : Reg} (c : Bool) (b : Byte) (h : flaggedDestination? i = some x) :
      Effect s i (s.setFlagThenV c x b).advance
  | random (x : Reg) (kk b : Byte) :
      Effect s (.rndVxKK x kk) (s.draw8.2.setV x b).advance
  | index {i : Instr} (w : Word) (h : writesIndex i = true) : Effect s i (s.setI w).advance
  | delay (x : Reg) (b : Byte) : Effect s (.ldDTVx x) (s.setDT b).advance
  | sound (x : Reg) (b : Byte) : Effect s (.ldSTVx x) (s.setST b).advance
  | store {i : Instr} (bs : List Byte) (hw : storeWidth? i = some bs.length)
      (hr : s.i.toNat + bs.length ≤ 4096) : Effect s i (s.store bs)
  | fill (x : Reg) (bs : List Byte) (h : bs.length = x.val + 1) :
      Effect s (.ldVxMem x) (s.setRegs (fillRegs 0 bs s.v)).advance
  | clear : Effect s .cls ((s.setFb 0).setDrawPending true).advance
  | draw (x y : Reg) (n : Nibble) (d : Blit) : Effect s (.drwVxVyN x y n) (s.present d)

/-- Every handler answers a next state, and what it has done is one of the effects (R75). -/
theorem exec_answers (i : Instr) (s : State) : ∃ t, exec i s = .next t ∧ Effect s i t := by
  cases i
  case cls => exact ⟨_, rfl, .clear⟩
  case ret =>
    rw [exec_ret]; split
    · exact ⟨_, rfl, .fault rfl⟩
    · exact ⟨_, rfl, .leave _⟩
  case jp nnn => exact ⟨_, rfl, .jump nnn⟩
  case call nnn =>
    rw [exec_call]; split
    · exact ⟨_, rfl, .enter nnn _⟩
    · exact ⟨_, rfl, .fault rfl⟩
  case jpV0NNN nnn => exact ⟨_, rfl, .indexedJump nnn⟩
  case seVxKK | sneVxKK | seVxVy | sneVxVy => exact ⟨_, rfl, .skip _⟩
  case skpVx x =>
    rw [exec_skpVx]; split
    · exact ⟨_, rfl, .skip _⟩
    · exact ⟨_, rfl, .fault rfl⟩
  case sknpVx x =>
    rw [exec_sknpVx]; split
    · exact ⟨_, rfl, .skip _⟩
    · exact ⟨_, rfl, .fault rfl⟩
  case ldVxKK | addVxKK | ldVxVy | orVxVy | andVxVy | xorVxVy | ldVxDT => exact ⟨_, rfl, .plain _ rfl⟩
  case addVxVy | subVxVy | subnVxVy | shrVx | shlVx => exact ⟨_, rfl, .flagged _ _ rfl⟩
  case rndVxKK x kk => exact ⟨_, rfl, .random x kk _⟩
  case ldINNN | addIVx | ldFVx => exact ⟨_, rfl, .index _ rfl⟩
  case ldDTVx x => exact ⟨_, rfl, .delay x _⟩
  case ldSTVx x => exact ⟨_, rfl, .sound x _⟩
  case ldVxK x =>
    cases h : s.lowestHeld with
    | none => exact ⟨_, exec_ldVxK_of_none h, .wait x⟩
    | some k => exact ⟨_, exec_ldVxK_of_some h, .plain _ rfl⟩
  case ldBVx x =>
    rw [exec_ldBVx]; split
    case isTrue hr => exact ⟨_, rfl, .store _ rfl hr⟩
    case isFalse => exact ⟨_, rfl, .fault rfl⟩
  case ldMemVx x =>
    have hlen := s.length_regBlock x
    rw [exec_ldMemVx]; split
    case isTrue hr => exact ⟨_, rfl, .store _ (congrArg some hlen.symm) (hlen ▸ hr)⟩
    case isFalse => exact ⟨_, rfl, .fault rfl⟩
  case ldVxMem x =>
    rw [exec_ldVxMem]; split
    · exact ⟨_, rfl, .fill x _ (Memory.length_readN _ _ _)⟩
    · exact ⟨_, rfl, .fault rfl⟩
  case drwVxVyN x y n =>
    rw [exec_drwVxVyN]; split
    · exact ⟨_, rfl, .draw x y n _⟩
    · exact ⟨_, rfl, .fault rfl⟩

theorem exec_effect {i : Instr} {s t : State} (h : exec i s = .next t) : Effect s i t := by
  obtain ⟨u, hu, he⟩ := exec_answers i s
  cases hu.symm.trans h
  exact he

end Sys2Proof.Machine
end

section
/-! The invariant: what keeps it, that every step and every host operation does, and so every run (10_state R17,
R30; 40_control_transfer R102; 60_exceptions R203). -/
namespace Sys2Proof.Machine

/-- The invariant reads five fields only. -/
theorem State.Inv.of_same {s t : State} (hs : s.Inv) (hmem : t.mem = s.mem) (hstack : t.stack = s.stack)
    (hhalted : t.halted = s.halted) (hfault : t.fault = s.fault) (hpc : t.pc.toNat ≤ 0x1100) : t.Inv := by
  obtain ⟨mem, -, stack, latch⟩ := hs
  exact ⟨hmem ▸ mem, hpc, hstack ▸ stack, by rw [hhalted, hfault, latch]⟩

/-- A fault writes the latch and the record together (R203). -/
theorem State.Inv.raiseFault {s : State} (hs : s.Inv) (code : FaultCode) (w : Option Word) :
    (s.raiseFault code w).Inv := by
  obtain ⟨mem, pc, stack, -⟩ := hs
  exact ⟨mem, pc, stack, rfl⟩

/-- CALL pushes at most 4096, since it was fetched from at most 4094 (R102). -/
theorem State.Inv.enter {s : State} (hs : s.Inv) (hpc : s.pc.toNat ≤ 4094) (nnn : Addr) (h : s.sp.val < 16) :
    (s.enter nnn h).Inv := by
  obtain ⟨mem, -, stack, latch⟩ := hs
  have hret : s.returnAddress.toNat ≤ 4096 := by
    rw [State.returnAddress]; bv_omega
  have hnnn : (addrOperand nnn).toNat ≤ 0x1100 := by
    have := nnn.isLt; rw [addrOperand_toNat]; omega
  refine ⟨mem, hnnn, fun j => ?slots, latch⟩
  case slots =>
    simp only [State.enter, Vector.get_eq_getElem, Vector.getElem_set]
    split
    · exact hret
    · exact stack j

/-- RET takes its `pc` from a slot (R100). -/
theorem State.Inv.leave {s : State} (hs : s.Inv) (j : Fin 16) : (s.leave j).Inv := by
  obtain ⟨mem, -, stack, latch⟩ := hs
  exact ⟨mem, (stack j).trans (by decide), stack, latch⟩

/-- A store keeps memory canonical (R143, R144). -/
theorem State.Inv.store {s : State} (hs : s.Inv) (hpc : s.pc.toNat ≤ 4094) (bs : List Byte) :
    (s.store bs).Inv := by
  obtain ⟨mem, -, stack, latch⟩ := hs
  have hnext : (s.pc + 2).toNat ≤ 0x1100 := by bv_omega
  exact ⟨Memory.wf_writeN bs _ _ mem, hnext, stack, latch⟩

/-- Whatever a handler does to a state that could be fetched from keeps the invariant. -/
theorem Effect.keeps_inv {s t : State} {i : Instr} (h : Effect s i t) (hs : s.Inv) (hpc : s.pc.toNat ≤ 4094) :
    t.Inv := by
  have hnext : (s.pc + 2).toNat ≤ 0x1100 := by bv_omega
  cases h with
  | fault => exact hs.raiseFault _ _
  | wait => exact hs
  | skip c =>
    refine hs.of_same rfl rfl rfl rfl ?_
    rw [State.skipIf_pc]
    split
    · bv_omega
    · exact hnext
  | jump nnn =>
    have := nnn.isLt
    refine hs.of_same rfl rfl rfl rfl ?_
    rw [State.setPc_pc, addrOperand_toNat]; omega
  | indexedJump nnn =>
    have := nnn.isLt
    have := (s.getV 0).isLt
    refine hs.of_same rfl rfl rfl rfl ?_
    rw [State.setPc_pc, indexedTarget_toNat]; omega
  | enter nnn hsp => exact hs.enter hpc nnn hsp
  | leave j => exact hs.leave j
  | store bs => exact hs.store hpc bs
  | _ => exact hs.of_same rfl rfl rfl rfl hnext

/-- What follows the handler writes only what the timer policy does (R60, R210). -/
theorem finishCycle_frame (s : State) :
    { finishCycle s with tick := s.tick, dt := s.dt, st := s.st, soundStops := s.soundStops } = s := by
  simp only [finishCycle]
  split
  · rfl
  · exact timerPolicy_frame s

theorem State.Inv.finishCycle {s : State} (hs : s.Inv) : (finishCycle s).Inv :=
  (congrArg State.Inv (finishCycle_frame s)).mpr hs

/-- Settles O16: a halted cycle changes nothing, a fault keeps all but latch and record, and a handler that runs
was fetched from at most 4094, so no `pc` it leaves and no address it pushes is out of bounds. -/
theorem stepKeepsInvariant : Obligations.StepKeepsInvariant := by
  intro s t hs h
  rcases step_cases h with ⟨-, rfl⟩ | ⟨-, -, rfl⟩ | ⟨w, e, -, -, -, rfl⟩ | ⟨w, i, u, -, hf, -, hx, rfl⟩
  · exact hs
  · exact hs.raiseFault _ _
  · exact hs.raiseFault _ _
  · have hpc := (State.fetchWord_eq_some.1 hf).1
    exact ((exec_effect hx).keeps_inv hs hpc).finishCycle

theorem State.Inv.reset : State.reset.Inv := by
  refine ⟨Memory.wf_reset, by decide, fun j => ?slots, rfl⟩
  case slots => simp [State.reset, Vector.get_eq_getElem]

/-- Settles O15: at reset memory has no entry, `pc` is 0x200, every slot is 0 and there is no record; a Reset
applied again differs only in counters the invariant does not read. -/
theorem invariantHoldsAfterReset : Obligations.InvariantHoldsAfterReset :=
  ⟨State.Inv.reset, fun _ => State.Inv.reset⟩

theorem State.Inv.applyEvent {s : State} (hs : s.Inv) (e : HostEvent) : (applyEvent s e).Inv := by
  cases e <;> exact hs

/-- An image is stored byte by byte, or rejected with latch and record written together (R243, R244). -/
theorem State.Inv.loadProgram {s : State} (hs : s.Inv) (image : List Byte) : (loadProgram image s).Inv := by
  obtain ⟨mem, pc, stack, latch⟩ := hs
  simp only [Machine.loadProgram]
  split
  · exact ⟨Memory.wf_writeN image _ _ mem, pc, stack, latch⟩
  · exact ⟨mem, pc, stack, rfl⟩

/-- Settles O17: the events by induction over their list, the load from the invariant after Reset. -/
theorem hostOperationsKeepInvariant : Obligations.HostOperationsKeepInvariant := by
  refine ⟨fun s events hs => ?events, fun s image => (invariantHoldsAfterReset.2 s).loadProgram image⟩
  case events =>
    induction events generalizing s with
    | nil => exact hs
    | cons e events ih => exact ih _ (hs.applyEvent e)

/-- Settles O18: by induction over the run. -/
theorem reachableStatesMeetInvariant : Obligations.ReachableStatesMeetInvariant := by
  intro s hr
  induction hr with
  | power => exact invariantHoldsAfterReset.1
  | reset s => exact invariantHoldsAfterReset.2 s
  | load s image => exact hostOperationsKeepInvariant.2 s image
  | event s e _ ih => exact ih.applyEvent e
  | cycle s t _ hstep ih => exact stepKeepsInvariant s t ih hstep

end Sys2Proof.Machine
end

section
/-! The decoder and the encoder (30_encoding R63 to R73): a word is put together again from its fields, so that
each branch of the decoder answers the instruction whose encoding is the word with its ignored bits 0. -/
namespace Sys2Proof

/-! A word from its fields. -/

theorem packA_fields {w : Word} {f : Nibble} (hf : fieldFamily w = f) : packA f (fieldNNN w) = w := by
  refine BitVec.eq_of_toNat_eq ?_
  rw [toNat_packA, ← hf, toNat_fieldFamily, toNat_fieldNNN]; omega

theorem packXK_fields {w : Word} {f : Nibble} {kk : Byte} (hf : fieldFamily w = f) (hk : fieldKK w = kk) :
    packXK f (fieldX w) kk = w := by
  refine BitVec.eq_of_toNat_eq ?_
  rw [toNat_packXK, ← hf, ← hk, toNat_fieldFamily, val_fieldX, toNat_fieldKK]; omega

theorem packXYN_fields {w : Word} {f n : Nibble} (hf : fieldFamily w = f) (hn : fieldN w = n) :
    packXYN f (fieldX w) (fieldY w) n = w := by
  refine BitVec.eq_of_toNat_eq ?_
  rw [toNat_packXYN, ← hf, ← hn, toNat_fieldFamily, val_fieldX, val_fieldY, toNat_fieldN]; omega

/-! The word with its ignored bits 0. -/

theorem fieldFamily_and (w m : Word) : fieldFamily (w &&& m) = fieldFamily w &&& fieldFamily m :=
  BitVec.extractLsb'_and

theorem fieldN_and (w m : Word) : fieldN (w &&& m) = fieldN w &&& fieldN m := BitVec.extractLsb'_and

theorem fieldKK_and (w m : Word) : fieldKK (w &&& m) = fieldKK w &&& fieldKK m := BitVec.extractLsb'_and

theorem fieldNNN_and (w m : Word) : fieldNNN (w &&& m) = fieldNNN w &&& fieldNNN m := BitVec.extractLsb'_and

/-- A packed word under a mask, nibble by nibble. -/
theorem packXYN_and (f n a b c d : Nibble) (x y : Reg) :
    packXYN f x y n &&& (a ++ b ++ c ++ d) =
      (f &&& a) ++ ((BitVec.ofFin x : Nibble) &&& b) ++ ((BitVec.ofFin y : Nibble) &&& c) ++ (n &&& d) := by
  rw [packXYN, BitVec.and_append, BitVec.and_append, BitVec.and_append]

theorem nibble_and_ones (b : Nibble) : b &&& 0xF = b := BitVec.and_allOnes

/-- Families 5 and 9 ignore the low nibble (R70). -/
theorem packXYN_and_FFF0 (f n : Nibble) (x y : Reg) : packXYN f x y n &&& 0xFFF0 = packXYN f x y 0 := by
  refine (packXYN_and f n 0xF 0xF 0xF 0 x y).trans ?_
  simp only [nibble_and_ones, Laws.EncodingRow.and_zero_lit]; rfl

/-- SHR and SHL ignore the field Y (R70). -/
theorem packXYN_and_FF0F (f n : Nibble) (x y : Reg) : packXYN f x y n &&& 0xFF0F = packXYN f x 0 n := by
  refine (packXYN_and f n 0xF 0xF 0 0xF x y).trans ?_
  simp only [nibble_and_ones, Laws.EncodingRow.and_zero_lit]; rfl

theorem canonicalWord_of_other {w : Word} {f : Nibble} (hf : fieldFamily w = f)
    (h : f ≠ 0x5 ∧ f ≠ 0x9 ∧ f ≠ 0x8) : canonicalWord w = w := by
  obtain ⟨h5, h9, h8⟩ := h
  rw [canonicalWord, hf, if_neg (not_or.2 ⟨h5, h9⟩), if_neg (mt And.left h8)]

theorem canonicalWord_of_compare {w : Word} {f : Nibble} (hf : fieldFamily w = f) (h : f = 0x5 ∨ f = 0x9) :
    canonicalWord w = packXYN f (fieldX w) (fieldY w) 0 := by
  rw [canonicalWord, hf, if_pos h, ← packXYN_and_FFF0 f (fieldN w), packXYN_fields hf rfl]

theorem canonicalWord_of_shift {w : Word} {n : Nibble} (hf : fieldFamily w = 0x8) (hn : fieldN w = n)
    (h : n = 0x6 ∨ n = 0xE) : canonicalWord w = packXYN 0x8 (fieldX w) 0 n := by
  rw [canonicalWord, hf, hn, if_neg (by decide), if_pos ⟨rfl, h⟩, ← packXYN_and_FF0F _ _ _ (fieldY w),
    packXYN_fields hf hn]

theorem canonicalWord_of_alu {w : Word} {n : Nibble} (hf : fieldFamily w = 0x8) (hn : fieldN w = n)
    (h : n ≠ 0x6 ∧ n ≠ 0xE) : canonicalWord w = packXYN 0x8 (fieldX w) (fieldY w) n := by
  rw [canonicalWord, hf, hn, if_neg (by decide), if_neg fun h' => h'.2.elim h.1 h.2, packXYN_fields hf hn]

theorem fieldFamily_canonicalWord (w : Word) : fieldFamily (canonicalWord w) = fieldFamily w := by
  have keeps (m : Word) (hm : fieldFamily m = BitVec.allOnes 4) : fieldFamily (w &&& m) = fieldFamily w := by
    rw [fieldFamily_and, hm, BitVec.and_allOnes]
  simp only [canonicalWord]
  split
  · exact keeps _ rfl
  · split
    · exact keeps _ rfl
    · rfl

/-! The decoder, one equation per leading nibble (R66). -/

section
variable {w : Word}

theorem decodeWord_of_family0 (hf : fieldFamily w = 0x0) : decodeWord w = decodeFamily0 w := by
  rw [decodeWord, hf]; rfl

theorem decodeWord_of_family1 (hf : fieldFamily w = 0x1) : decodeWord w = .ok (.jp (fieldNNN w)) := by
  rw [decodeWord, hf]; rfl

theorem decodeWord_of_family2 (hf : fieldFamily w = 0x2) : decodeWord w = .ok (.call (fieldNNN w)) := by
  rw [decodeWord, hf]; rfl

theorem decodeWord_of_family3 (hf : fieldFamily w = 0x3) :
    decodeWord w = .ok (.seVxKK (fieldX w) (fieldKK w)) := by
  rw [decodeWord, hf]; rfl

theorem decodeWord_of_family4 (hf : fieldFamily w = 0x4) :
    decodeWord w = .ok (.sneVxKK (fieldX w) (fieldKK w)) := by
  rw [decodeWord, hf]; rfl

theorem decodeWord_of_family5 (hf : fieldFamily w = 0x5) :
    decodeWord w = .ok (.seVxVy (fieldX w) (fieldY w)) := by
  rw [decodeWord, hf]; rfl

theorem decodeWord_of_family6 (hf : fieldFamily w = 0x6) :
    decodeWord w = .ok (.ldVxKK (fieldX w) (fieldKK w)) := by
  rw [decodeWord, hf]; rfl

theorem decodeWord_of_family7 (hf : fieldFamily w = 0x7) :
    decodeWord w = .ok (.addVxKK (fieldX w) (fieldKK w)) := by
  rw [decodeWord, hf]; rfl

theorem decodeWord_of_family8 (hf : fieldFamily w = 0x8) : decodeWord w = decodeFamily8 w := by
  rw [decodeWord, hf]; rfl

theorem decodeWord_of_family9 (hf : fieldFamily w = 0x9) :
    decodeWord w = .ok (.sneVxVy (fieldX w) (fieldY w)) := by
  rw [decodeWord, hf]; rfl

theorem decodeWord_of_familyA (hf : fieldFamily w = 0xA) : decodeWord w = .ok (.ldINNN (fieldNNN w)) := by
  rw [decodeWord, hf]; rfl

theorem decodeWord_of_familyB (hf : fieldFamily w = 0xB) : decodeWord w = .ok (.jpV0NNN (fieldNNN w)) := by
  rw [decodeWord, hf]; rfl

theorem decodeWord_of_familyC (hf : fieldFamily w = 0xC) :
    decodeWord w = .ok (.rndVxKK (fieldX w) (fieldKK w)) := by
  rw [decodeWord, hf]; rfl

theorem decodeWord_of_familyD (hf : fieldFamily w = 0xD) :
    decodeWord w = .ok (.drwVxVyN (fieldX w) (fieldY w) (fieldN w)) := by
  rw [decodeWord, hf]; rfl

theorem decodeWord_of_familyE (hf : fieldFamily w = 0xE) : decodeWord w = decodeFamilyE w := by
  rw [decodeWord, hf]; rfl

theorem decodeWord_of_familyF (hf : fieldFamily w = 0xF) : decodeWord w = decodeFamilyF w := by
  rw [decodeWord, hf]; rfl

end

theorem nibble_cases (f : Nibble) : f = 0x0 ∨ f = 0x1 ∨ f = 0x2 ∨ f = 0x3 ∨ f = 0x4 ∨ f = 0x5 ∨ f = 0x6 ∨ f = 0x7 ∨
    f = 0x8 ∨ f = 0x9 ∨ f = 0xA ∨ f = 0xB ∨ f = 0xC ∨ f = 0xD ∨ f = 0xE ∨ f = 0xF := by
  revert f; decide

/-! Decode of encode. -/

@[simp] theorem regOk_val (x : Reg) : WellFormed.regOk x.val = true := decide_eq_true x.isLt
@[simp] theorem byteOk_toNat (kk : Byte) : WellFormed.byteOk kk.toNat = true := decide_eq_true kk.isLt
@[simp] theorem nibbleOk_toNat (n : Nibble) : WellFormed.nibbleOk n.toNat = true := decide_eq_true n.isLt
@[simp] theorem addrOk_toNat (nnn : Addr) : WellFormed.addrOk nnn.toNat = true := decide_eq_true nnn.isLt

/-- No field of an instruction can be out of its range (R72). -/
theorem instrOk_all (i : Instr) : WellFormed.instrOk i = true := by
  cases i <;> simp [WellFormed.instrOk]

/-- The decoder takes the branch of the instruction's own row, and the packed fields come back (R73). -/
theorem decodeWord_encode (i : Instr) : decodeWord (encode i) = .ok i := by
  cases i
  case cls | ret => rfl
  all_goals simp [encode, decodeWord, decodeFamily8, decodeFamilyE, decodeFamilyF]

/-- Settles O19: the field types hold only legal values, and what was packed is what the decoder reads. -/
theorem decodeEncodeAgree : Obligations.DecodeEncodeAgree :=
  fun i => ⟨instrOk_all i, decodeWord_encode i⟩

/-! Encode of decode. The secondary decoders are chains of tests; one test is taken off at a time. -/

theorem ok_of_ite {c : Prop} [Decidable c] {a i : Instr} {rest : Except DecodeError Instr}
    (h : (if c then .ok a else rest) = .ok i) : (c ∧ a = i) ∨ rest = .ok i := by
  split at h
  case isTrue hc => exact .inl ⟨hc, Except.ok.inj h⟩
  case isFalse => exact .inr h

theorem error_of_ite {c : Prop} [Decidable c] {a : Instr} {rest : Except DecodeError Instr} :
    (∃ e, (if c then .ok a else rest) = .error e) ↔ ¬c ∧ ∃ e, rest = .error e := by
  by_cases hc : c <;> simp [hc]

theorem encode_of_decodeFamily0 {w : Word} {i : Instr} (hf : fieldFamily w = 0x0)
    (h : decodeFamily0 w = .ok i) : encode i = w := by
  rw [← packA_fields hf]
  rcases ok_of_ite h with ⟨hn, rfl⟩ | h
  · rw [hn]; rfl
  rcases ok_of_ite h with ⟨hn, rfl⟩ | h
  · rw [hn]; rfl
  cases h

theorem encode_of_decodeFamily8 {w : Word} {i : Instr} (hf : fieldFamily w = 0x8)
    (h : decodeFamily8 w = .ok i) : encode i = canonicalWord w := by
  have alu {n : Nibble} (hn : fieldN w = n) (h : n ≠ 0x6 ∧ n ≠ 0xE) := (canonicalWord_of_alu hf hn h).symm
  have shift {n : Nibble} (hn : fieldN w = n) (h : n = 0x6 ∨ n = 0xE) := (canonicalWord_of_shift hf hn h).symm
  iterate 6
    rcases ok_of_ite h with ⟨hn, rfl⟩ | h
    · exact alu hn (by decide)
  rcases ok_of_ite h with ⟨hn, rfl⟩ | h
  · exact shift hn (by decide)
  rcases ok_of_ite h with ⟨hn, rfl⟩ | h
  · exact alu hn (by decide)
  rcases ok_of_ite h with ⟨hn, rfl⟩ | h
  · exact shift hn (by decide)
  cases h

theorem encode_of_decodeFamilyE {w : Word} {i : Instr} (hf : fieldFamily w = 0xE)
    (h : decodeFamilyE w = .ok i) : encode i = w := by
  iterate 2
    rcases ok_of_ite h with ⟨hk, rfl⟩ | h
    · exact packXK_fields hf hk
  cases h

theorem encode_of_decodeFamilyF {w : Word} {i : Instr} (hf : fieldFamily w = 0xF)
    (h : decodeFamilyF w = .ok i) : encode i = w := by
  iterate 9
    rcases ok_of_ite h with ⟨hk, rfl⟩ | h
    · exact packXK_fields hf hk
  cases h

/-- Each branch of the decoder answers the instruction whose encoding is the word with its ignored bits 0. -/
theorem encode_of_decodeWord {w : Word} {i : Instr} (h : decodeWord w = .ok i) : encode i = canonicalWord w := by
  have other {f : Nibble} (hf : fieldFamily w = f) (hne : f ≠ 0x5 ∧ f ≠ 0x9 ∧ f ≠ 0x8) {u : Word} (hu : u = w) :
      u = canonicalWord w := hu.trans (canonicalWord_of_other hf hne).symm
  rcases nibble_cases (fieldFamily w) with
    f0 | f1 | f2 | f3 | f4 | f5 | f6 | f7 | f8 | f9 | fA | fB | fC | fD | fE | fF
  · exact other f0 (by decide) (encode_of_decodeFamily0 f0 (decodeWord_of_family0 f0 ▸ h))
  · cases (decodeWord_of_family1 f1).symm.trans h; exact other f1 (by decide) (packA_fields f1)
  · cases (decodeWord_of_family2 f2).symm.trans h; exact other f2 (by decide) (packA_fields f2)
  · cases (decodeWord_of_family3 f3).symm.trans h; exact other f3 (by decide) (packXK_fields f3 rfl)
  · cases (decodeWord_of_family4 f4).symm.trans h; exact other f4 (by decide) (packXK_fields f4 rfl)
  · cases (decodeWord_of_family5 f5).symm.trans h; exact (canonicalWord_of_compare f5 (by decide)).symm
  · cases (decodeWord_of_family6 f6).symm.trans h; exact other f6 (by decide) (packXK_fields f6 rfl)
  · cases (decodeWord_of_family7 f7).symm.trans h; exact other f7 (by decide) (packXK_fields f7 rfl)
  · exact encode_of_decodeFamily8 f8 (decodeWord_of_family8 f8 ▸ h)
  · cases (decodeWord_of_family9 f9).symm.trans h; exact (canonicalWord_of_compare f9 (by decide)).symm
  · cases (decodeWord_of_familyA fA).symm.trans h; exact other fA (by decide) (packA_fields fA)
  · cases (decodeWord_of_familyB fB).symm.trans h; exact other fB (by decide) (packA_fields fB)
  · cases (decodeWord_of_familyC fC).symm.trans h; exact other fC (by decide) (packXK_fields fC rfl)
  · cases (decodeWord_of_familyD fD).symm.trans h; exact other fD (by decide) (packXYN_fields fD rfl)
  · exact other fE (by decide) (encode_of_decodeFamilyE fE (decodeWord_of_familyE fE ▸ h))
  · exact other fF (by decide) (encode_of_decodeFamilyF fF (decodeWord_of_familyF fF ▸ h))

/-- Settles O20: the canonical word is the encoding, which decodes to the instruction. -/
theorem encodeOfDecodeIsCanonical : Obligations.EncodeOfDecodeIsCanonical := by
  intro w i h
  have he := encode_of_decodeWord h
  exact ⟨he, he ▸ decodeWord_encode i⟩

/-! The words that are no instruction. -/

/-- The words without a handler, by their fields (R69). -/
def Unrecognized (w : Word) : Prop :=
  (fieldFamily w = 0x0 ∧ fieldNNN w ∉ [0x0E0, 0x0EE]) ∨
  (fieldFamily w = 0x8 ∧ fieldN w ∉ [0x0, 0x1, 0x2, 0x3, 0x4, 0x5, 0x6, 0x7, 0xE]) ∨
  (fieldFamily w = 0xE ∧ fieldKK w ∉ [0x9E, 0xA1]) ∨
  (fieldFamily w = 0xF ∧ fieldKK w ∉ [0x07, 0x0A, 0x15, 0x18, 0x1E, 0x29, 0x33, 0x55, 0x65])

theorem decodeFamily0_error_iff (w : Word) :
    (∃ e, decodeFamily0 w = .error e) ↔ fieldNNN w ∉ [0x0E0, 0x0EE] := by
  simp [decodeFamily0, error_of_ite]

theorem decodeFamily8_error_iff (w : Word) :
    (∃ e, decodeFamily8 w = .error e) ↔ fieldN w ∉ [0x0, 0x1, 0x2, 0x3, 0x4, 0x5, 0x6, 0x7, 0xE] := by
  simp [decodeFamily8, error_of_ite]

theorem decodeFamilyE_error_iff (w : Word) :
    (∃ e, decodeFamilyE w = .error e) ↔ fieldKK w ∉ [0x9E, 0xA1] := by
  simp [decodeFamilyE, error_of_ite]

theorem decodeFamilyF_error_iff (w : Word) :
    (∃ e, decodeFamilyF w = .error e) ↔
      fieldKK w ∉ [0x07, 0x0A, 0x15, 0x18, 0x1E, 0x29, 0x33, 0x55, 0x65] := by
  simp [decodeFamilyF, error_of_ite]

theorem decodeWord_error_iff (w : Word) : (∃ e, decodeWord w = .error e) ↔ Unrecognized w := by
  rcases nibble_cases (fieldFamily w) with
    f0 | f1 | f2 | f3 | f4 | f5 | f6 | f7 | f8 | f9 | fA | fB | fC | fD | fE | fF
  · simp [decodeWord_of_family0 f0, decodeFamily0_error_iff, Unrecognized, f0]
  · simp [decodeWord_of_family1 f1, Unrecognized, f1]
  · simp [decodeWord_of_family2 f2, Unrecognized, f2]
  · simp [decodeWord_of_family3 f3, Unrecognized, f3]
  · simp [decodeWord_of_family4 f4, Unrecognized, f4]
  · simp [decodeWord_of_family5 f5, Unrecognized, f5]
  · simp [decodeWord_of_family6 f6, Unrecognized, f6]
  · simp [decodeWord_of_family7 f7, Unrecognized, f7]
  · simp [decodeWord_of_family8 f8, decodeFamily8_error_iff, Unrecognized, f8]
  · simp [decodeWord_of_family9 f9, Unrecognized, f9]
  · simp [decodeWord_of_familyA fA, Unrecognized, fA]
  · simp [decodeWord_of_familyB fB, Unrecognized, fB]
  · simp [decodeWord_of_familyC fC, Unrecognized, fC]
  · simp [decodeWord_of_familyD fD, Unrecognized, fD]
  · simp [decodeWord_of_familyE fE, decodeFamilyE_error_iff, Unrecognized, fE]
  · simp [decodeWord_of_familyF fF, decodeFamilyF_error_iff, Unrecognized, fF]

/-- Settles O22: the decoder's failures by fields, and each field as the number it is. -/
theorem unrecognizedWordsExactly : Obligations.UnrecognizedWordsExactly := by
  intro w
  have := w.isLt
  rw [decodeWord_error_iff]
  refine or_congr ?_ (or_congr ?_ (or_congr ?_ ?_)) <;>
    simp only [List.mem_cons, List.not_mem_nil, or_false, ← BitVec.toNat_inj, toNat_fieldFamily, toNat_fieldNNN,
      toNat_fieldN, toNat_fieldKK, BitVec.ofNat_eq_ofNat, BitVec.toNat_ofNat, ne_eq] <;>
    omega

/-! The instruction list (R68). -/

theorem opcodeRow_mem (i : Instr) : opcodeRow i ∈ opcodeTable := by
  cases i <;> simp [opcodeRow, opcodeTable, rowRepresentatives]

/-- An encoding selects its instruction's row. -/
theorem encode_selects_row : ∀ i : Instr, rowMatches (opcodeRow i) (encode i) = true
  | .cls => Laws.EncodingRow.cls
  | .ret => Laws.EncodingRow.ret
  | .jp nnn => Laws.EncodingRow.jp nnn
  | .call nnn => Laws.EncodingRow.call nnn
  | .seVxKK x kk => Laws.EncodingRow.seVxKK x kk
  | .sneVxKK x kk => Laws.EncodingRow.sneVxKK x kk
  | .seVxVy x y => Laws.EncodingRow.seVxVy x y
  | .ldVxKK x kk => Laws.EncodingRow.ldVxKK x kk
  | .addVxKK x kk => Laws.EncodingRow.addVxKK x kk
  | .ldVxVy x y => Laws.EncodingRow.ldVxVy x y
  | .orVxVy x y => Laws.EncodingRow.orVxVy x y
  | .andVxVy x y => Laws.EncodingRow.andVxVy x y
  | .xorVxVy x y => Laws.EncodingRow.xorVxVy x y
  | .addVxVy x y => Laws.EncodingRow.addVxVy x y
  | .subVxVy x y => Laws.EncodingRow.subVxVy x y
  | .shrVx x => Laws.EncodingRow.shrVx x
  | .subnVxVy x y => Laws.EncodingRow.subnVxVy x y
  | .shlVx x => Laws.EncodingRow.shlVx x
  | .sneVxVy x y => Laws.EncodingRow.sneVxVy x y
  | .ldINNN nnn => Laws.EncodingRow.ldINNN nnn
  | .jpV0NNN nnn => Laws.EncodingRow.jpV0NNN nnn
  | .rndVxKK x kk => Laws.EncodingRow.rndVxKK x kk
  | .drwVxVyN x y n => Laws.EncodingRow.drwVxVyN x y n
  | .skpVx x => Laws.EncodingRow.skpVx x
  | .sknpVx x => Laws.EncodingRow.sknpVx x
  | .ldVxDT x => Laws.EncodingRow.ldVxDT x
  | .ldVxK x => Laws.EncodingRow.ldVxK x
  | .ldDTVx x => Laws.EncodingRow.ldDTVx x
  | .ldSTVx x => Laws.EncodingRow.ldSTVx x
  | .addIVx x => Laws.EncodingRow.addIVx x
  | .ldFVx x => Laws.EncodingRow.ldFVx x
  | .ldBVx x => Laws.EncodingRow.ldBVx x
  | .ldMemVx x => Laws.EncodingRow.ldMemVx x
  | .ldVxMem x => Laws.EncodingRow.ldVxMem x

/-! What the 34 rows have in common, by inspection of the table. -/

theorem opcodeTable_family_masked : ∀ r ∈ opcodeTable, fieldFamily r.mask = 0xF := by decide

theorem opcodeTable_compare_mask :
    ∀ r ∈ opcodeTable, fieldFamily r.pattern = 0x5 ∨ fieldFamily r.pattern = 0x9 → r.mask = 0xF000 := by decide

theorem opcodeTable_family8 : ∀ r ∈ opcodeTable, fieldFamily r.pattern = 0x8 → r.mask = 0xF00F ∧
    fieldN r.pattern ∈ [0x0, 0x1, 0x2, 0x3, 0x4, 0x5, 0x6, 0x7, (0xE : Nibble)] := by decide

theorem opcodeTable_family0 : ∀ r ∈ opcodeTable, fieldFamily r.pattern = 0x0 → r.mask = 0xFFFF ∧
    fieldNNN r.pattern ∈ [0x0E0, (0x0EE : Addr)] := by decide

theorem opcodeTable_familyE : ∀ r ∈ opcodeTable, fieldFamily r.pattern = 0xE → r.mask = 0xF0FF ∧
    fieldKK r.pattern ∈ [0x9E, (0xA1 : Byte)] := by decide

theorem opcodeTable_familyF : ∀ r ∈ opcodeTable, fieldFamily r.pattern = 0xF → r.mask = 0xF0FF ∧
    fieldKK r.pattern ∈ [0x07, 0x0A, 0x15, 0x18, 0x1E, 0x29, 0x33, 0x55, (0x65 : Byte)] := by decide

/-- Rows that agree where both compare are one row. -/
theorem opcodeTable_disjoint : ∀ r ∈ opcodeTable, ∀ r' ∈ opcodeTable,
    r.pattern &&& r'.mask = r'.pattern &&& r.mask → r = r' := by decide

theorem rowMatches_iff {r : OpcodeRow} {w : Word} : rowMatches r w = true ↔ w &&& r.mask = r.pattern := beq_iff_eq

theorem fieldFamily_of_rowMatches {r : OpcodeRow} {w : Word} (hr : r ∈ opcodeTable)
    (h : rowMatches r w = true) : fieldFamily w = fieldFamily r.pattern := by
  rw [← rowMatches_iff.1 h, fieldFamily_and, opcodeTable_family_masked r hr, nibble_and_ones]

/-- No word selects two rows. -/
theorem rowMatches_unique {r r' : OpcodeRow} {w : Word} (hr : r ∈ opcodeTable) (hr' : r' ∈ opcodeTable)
    (h : rowMatches r w = true) (h' : rowMatches r' w = true) : r = r' := by
  refine opcodeTable_disjoint r hr r' hr' ?_
  rw [← rowMatches_iff.1 h, ← rowMatches_iff.1 h', BitVec.and_assoc, BitVec.and_assoc,
    BitVec.and_comm r.mask r'.mask]

/-- No row compares an ignored bit. -/
theorem rowMatches_of_canonicalWord {r : OpcodeRow} {w : Word} (hr : r ∈ opcodeTable)
    (h : rowMatches r (canonicalWord w) = true) : rowMatches r w = true := by
  have hfam := fieldFamily_of_rowMatches hr h
  rw [fieldFamily_canonicalWord] at hfam
  rw [rowMatches_iff] at h ⊢
  rw [← h, canonicalWord]
  split
  case isTrue h59 => rw [opcodeTable_compare_mask r hr (hfam ▸ h59), BitVec.and_assoc]; rfl
  case isFalse =>
    split
    case isTrue h8 => rw [(opcodeTable_family8 r hr (hfam ▸ h8.1)).1, BitVec.and_assoc]; rfl
    case isFalse => rfl

/-- A word that selects a row is not one of the unrecognised ones. -/
theorem not_unrecognized_of_rowMatches {r : OpcodeRow} {w : Word} (hr : r ∈ opcodeTable)
    (h : rowMatches r w = true) : ¬Unrecognized w := by
  have hfam := fieldFamily_of_rowMatches hr h
  have hw := rowMatches_iff.1 h
  rintro (⟨hf, hn⟩ | ⟨hf, hn⟩ | ⟨hf, hn⟩ | ⟨hf, hn⟩)
  · obtain ⟨hm, hp⟩ := opcodeTable_family0 r hr (hfam ▸ hf)
    rw [← hw, hm, fieldNNN_and] at hp
    exact hn ((BitVec.and_allOnes (x := fieldNNN w)) ▸ hp)
  · obtain ⟨hm, hp⟩ := opcodeTable_family8 r hr (hfam ▸ hf)
    rw [← hw, hm, fieldN_and] at hp
    exact hn ((BitVec.and_allOnes (x := fieldN w)) ▸ hp)
  · obtain ⟨hm, hp⟩ := opcodeTable_familyE r hr (hfam ▸ hf)
    rw [← hw, hm, fieldKK_and] at hp
    exact hn ((BitVec.and_allOnes (x := fieldKK w)) ▸ hp)
  · obtain ⟨hm, hp⟩ := opcodeTable_familyF r hr (hfam ▸ hf)
    rw [← hw, hm, fieldKK_and] at hp
    exact hn ((BitVec.and_allOnes (x := fieldKK w)) ▸ hp)

/-- Settles O21: a decoded word selects the row its encoding selects, the rows are disjoint, and the words that
do not decode select none. -/
theorem decodeFollowsInstructionList : Obligations.DecodeFollowsInstructionList := by
  have selects {w : Word} {i : Instr} (hd : decodeWord w = .ok i) : rowMatches (opcodeRow i) w = true :=
    rowMatches_of_canonicalWord (opcodeRow_mem i) (encode_of_decodeWord hd ▸ encode_selects_row i)
  refine ⟨rfl, fun w i hd => ⟨opcodeRow_mem i, selects hd, fun r hr h => ?unique⟩, fun w r hr h => ?decodes⟩
  case unique => exact rowMatches_unique hr (opcodeRow_mem i) h (selects hd)
  case decodes =>
    cases hd : decodeWord w with
    | ok i => exact ⟨i, rfl⟩
    | error e => exact absurd ((decodeWord_error_iff w).1 ⟨e, hd⟩) (not_unrecognized_of_rowMatches hr h)

/-- Settles O23: by running the decoder on each word. -/
theorem specWordsDecode : Obligations.SpecWordsDecode := by
  refine ⟨?_, ?_, ?_, ?_, ?_, ?_, ?_, ?_, ?_, ?_, ?_, ?_, ?_, ?_, ?_, ?_, ?_, ?_⟩ <;> rfl

end Sys2Proof
end

section
/-! The cycle (30_encoding R60, 60_exceptions R203, R204): one equation per outcome, that a cycle always answers a
next state, and that a fault is precise. -/
namespace Sys2Proof.Machine

theorem step_of_halted {s : State} (hs : s.halted = true) : step s = .next s := by
  rw [step, hs]; rfl

theorem step_of_no_fetch {s : State} (hs : s.halted = false) (hf : s.fetchWord = none) :
    step s = .next s.faultInFetch := by
  rw [step, hs, hf]; rfl

theorem step_of_no_decode {s : State} {w : Word} {e : DecodeError} (hs : s.halted = false)
    (hf : s.fetchWord = some w) (hd : decodeWord w = .error e) : step s = .next (s.faultInDecode w) := by
  simp only [step, hs, hf, hd, Bool.false_eq_true, if_false]

/-- Settles O7: no word can be fetched there, and the fault is FetchOutOfRange (R45, R208). -/
theorem fetchBeyondTopFaults : Obligations.FetchBeyondTopFaults := by
  intro s hs hpc
  exact step_of_no_fetch hs (State.fetchWord_eq_none.2 hpc)

/-- Settles O8: the decoder's failure is the fault with the word in the record (R201). -/
theorem unrecognizedWordFaults : Obligations.UnrecognizedWordFaults := by
  intro s w e hs hf hd
  exact step_of_no_decode hs hf hd

/-- Settles O9 (R204). -/
theorem haltedCycleDoesNothing : Obligations.HaltedCycleDoesNothing :=
  fun _ => step_of_halted

/-- Settles O10: at most 4094 a word is fetched, and it is the one its two bytes make (R60). -/
theorem stepRunsDecodedInstruction : Obligations.StepRunsDecodedInstruction := by
  intro s t i hs hpc hd hx
  exact step_of_exec hs (State.fetchWord_eq_some.2 ⟨hpc, rfl⟩) hd hx

/-- Settles O11: the cycle stops nowhere but in its handler, and a handler always answers a next state. -/
theorem stepAlwaysAnswersNext : Obligations.StepAlwaysAnswersNext := by
  intro s
  cases hs : s.halted with
  | true => exact ⟨_, step_of_halted hs⟩
  | false =>
    cases hf : s.fetchWord with
    | none => exact ⟨_, step_of_no_fetch hs hf⟩
    | some w =>
      cases hd : decodeWord w with
      | error e => exact ⟨_, step_of_no_decode hs hf hd⟩
      | ok i =>
        obtain ⟨t, hx, -⟩ := exec_answers i s
        exact ⟨_, step_of_exec hs hf hd hx⟩

/-- An instruction that can fault has no ignored bits, so its encoding is the word fetched (R70; log entry 4). -/
theorem encode_of_handlerFault {w : Word} {i : Instr} {code : FaultCode} (hd : decodeWord w = .ok i)
    (hc : handlerFault? i = some code) : encode i = w := by
  have he := encode_of_decodeWord hd
  have hfam : fieldFamily (encode i) ≠ 0x5 ∧ fieldFamily (encode i) ≠ 0x9 ∧ fieldFamily (encode i) ≠ 0x8 := by
    cases i <;> cases hc
    case ret => decide
    all_goals simp [encode]
  rw [he, fieldFamily_canonicalWord] at hfam
  exact he.trans (canonicalWord_of_other rfl hfam)

/-- A handler that leaves a running CORE halted has taken its instruction's fault and done nothing else. -/
theorem Effect.of_halted {s t : State} {i : Instr} (h : Effect s i t) (hs : s.halted = false)
    (ht : t.halted = true) : ∃ code, handlerFault? i = some code ∧ t = s.raiseFault code (some (encode i)) := by
  cases h with
  | fault hc => exact ⟨_, hc, rfl⟩
  | _ => exact absurd (hs.symm.trans ht) Bool.false_ne_true

theorem finishCycle_of_halted {s : State} (h : s.halted = true) : finishCycle s = s := by
  rw [finishCycle, if_pos h]

/-- Settles O12: of the ways a cycle can go, the fault of the fetch, of the decoder and of the handler end halted;
each writes latch and record only, and the timer policy is skipped (R203). -/
theorem faultsArePrecise : Obligations.FaultsArePrecise := by
  intro s t hs hstep ht
  rcases step_cases hstep with ⟨hs', -⟩ | ⟨-, hf, rfl⟩ | ⟨w, e, -, hf, hd, rfl⟩ | ⟨w, i, u, -, hf, hd, hx, rfl⟩
  · exact absurd (hs.symm.trans hs') Bool.false_ne_true
  · rw [hf]
    exact ⟨_, rfl, rfl, rfl, rfl, nofun, rfl⟩
  · rw [hf]
    simp only [hd]
    exact ⟨_, rfl, rfl, rfl, rfl, nofun, rfl⟩
  · have hu : u.halted = true := finishCycle_halted u ▸ ht
    obtain ⟨code, hc, rfl⟩ := (exec_effect hx).of_halted hs hu
    rw [finishCycle_of_halted hu, hf, encode_of_handlerFault hd hc]
    simp only [hd]
    refine ⟨_, rfl, rfl, rfl, rfl, ?other, ?number⟩
    case other => rintro ⟨⟩; cases i <;> cases hc
    case number => cases i <;> cases hc <;> rfl

/-- Settles O14: in a servicing cycle the policy acts on the state the handler left, which holds the value just
written; LD Vx,DT has read `DT` before (70_reset section 4). -/
theorem timerWriteInServicingCycle : Obligations.TimerWriteInServicingCycle := by
  intro s w x hs hf htick
  have cycle {i : Instr} {e : State} (hd : decodeWord w = .ok i) (hx : exec i s = .next e) :=
    timerPolicyEveryTenthCycle s e w i hs hf hd hx
  refine ⟨fun hd => ?writeDT, fun hd => ?writeST, fun hd => ?readDT⟩
  case writeDT =>
    obtain ⟨t, hstep, -, -, serves⟩ := cycle hd (exec_ldDTVx x s) hs
    obtain ⟨tick, dt, -, -⟩ := serves htick
    exact ⟨t, hstep, dt, tick⟩
  case writeST =>
    obtain ⟨t, hstep, -, -, serves⟩ := cycle hd (exec_ldSTVx x s) hs
    obtain ⟨tick, -, st, stops⟩ := serves htick
    exact ⟨t, hstep, st, tick, stops⟩
  case readDT =>
    obtain ⟨t, hstep, frame, -, serves⟩ := cycle hd (exec_ldVxDT x s) hs
    obtain ⟨tick, dt, -, -⟩ := serves htick
    have read := State.getV_congr (congrArg State.v frame) x
    exact ⟨t, hstep, read.trans (State.getV_setV_advance_same s x _), dt, tick⟩

end Sys2Proof.Machine
end

section
/-! What each instruction may write (10_state sections 1 to 10, 20_memory section 1): read off the effects. -/
namespace Sys2Proof.Machine

/-- Settles O24: only CLS and DRW write `draw_pending`, and they set it; no effect writes the other three. -/
theorem instructionsLeaveKeysTickAndSignals : Obligations.InstructionsLeaveKeysTickAndSignals := by
  intro i s t h
  cases exec_effect h with
  | clear => exact ⟨rfl, rfl, rfl, fun _ => rfl, fun _ => .inl rfl⟩
  | draw x y n => exact ⟨rfl, rfl, rfl, fun _ => rfl, fun _ => .inr ⟨x, y, n, rfl⟩⟩
  | _ => exact ⟨rfl, rfl, rfl, id, fun hne => absurd rfl hne⟩

theorem writesIndex_iff {i : Instr} :
    writesIndex i = true ↔ (∃ nnn, i = .ldINNN nnn) ∨ (∃ x, i = .addIVx x) ∨ ∃ x, i = .ldFVx x := by
  cases i <;> simp [writesIndex]

/-- Settles O25: each of the six has one or two effects that write it. -/
theorem indexStackTimersHaveTheirWriters : Obligations.IndexStackTimersHaveTheirWriters := by
  intro i s t h
  have he := exec_effect h
  refine ⟨fun hne => ?index, fun hne => ?stack, fun hne => ?sp, fun hne => ?dt, fun hne => ?st, fun hne => ?draws⟩
  case index =>
    cases he with
    | index _ hi => exact writesIndex_iff.1 hi
    | _ => exact absurd rfl hne
  case stack =>
    cases he with
    | enter nnn => exact ⟨nnn, rfl⟩
    | _ => exact absurd rfl hne
  case sp =>
    cases he with
    | enter nnn => exact .inr ⟨nnn, rfl⟩
    | leave => exact .inl rfl
    | _ => exact absurd rfl hne
  case dt =>
    cases he with
    | delay x => exact ⟨x, rfl⟩
    | _ => exact absurd rfl hne
  case st =>
    cases he with
    | sound x => exact ⟨x, rfl⟩
    | _ => exact absurd rfl hne
  case draws =>
    cases he with
    | random x kk => exact ⟨x, kk, rfl⟩
    | _ => exact absurd rfl hne

/-- A byte after a store that fits (R143, R144). -/
theorem State.read_store {s : State} {bs : List Byte} (h : s.i.toNat + bs.length ≤ 4096) (a : Nat) :
    Memory.read (s.store bs).mem a =
      if s.i.toNat ≤ a ∧ a < s.i.toNat + bs.length then bs.getD (a - s.i.toNat) 0 else Memory.read s.mem a :=
  Memory.read_writeN bs s.mem _ a h

theorem State.read_store_inside {s : State} {bs : List Byte} (h : s.i.toNat + bs.length ≤ 4096) {k : Nat}
    (hk : k < bs.length) : Memory.read (s.store bs).mem (s.i.toNat + k) = bs.getD k 0 := by
  rw [State.read_store h, if_pos (by omega), Nat.add_sub_cancel_left]

theorem State.read_store_outside {s : State} {bs : List Byte} (h : s.i.toNat + bs.length ≤ 4096) {a : Nat}
    (ha : a < s.i.toNat ∨ s.i.toNat + bs.length ≤ a) :
    Memory.read (s.store bs).mem a = Memory.read s.mem a := by
  rw [State.read_store h, if_neg (by omega)]

theorem storeWidth?_eq_some {i : Instr} {n : Nat} (h : storeWidth? i = some n) :
    (∃ x, i = .ldBVx x ∧ n = 3) ∨ ∃ x, i = .ldMemVx x ∧ n = x.val + 1 := by
  cases i <;> simp_all [storeWidth?]

/-- Settles O26: the stores write within their width, CLS and DRW write cells, no other effect writes either. -/
theorem memoryAndFramebufferHaveTheirWriters : Obligations.MemoryAndFramebufferHaveTheirWriters := by
  intro i s t h
  have he := exec_effect h
  refine ⟨fun a hne => ?mem, fun hne => ?fb⟩
  case mem =>
    cases he with
    | store bs hw hr =>
      have hin : s.i.toNat ≤ a ∧ a < s.i.toNat + bs.length := by
        by_contra hout
        exact hne (State.read_store_outside hr (by omega))
      rcases storeWidth?_eq_some hw with ⟨x, rfl, hlen⟩ | ⟨x, rfl, hlen⟩
      · exact ⟨hin.1, .inl ⟨⟨x, rfl⟩, hlen ▸ hin.2⟩⟩
      · exact ⟨hin.1, .inr ⟨x, rfl, by omega⟩⟩
    | _ => exact absurd rfl hne
  case fb =>
    cases he with
    | clear => exact .inl rfl
    | draw x y n => exact .inr ⟨x, y, n, rfl⟩
    | _ => exact absurd rfl hne

/-- A register that a write of Vx has changed is Vx. -/
theorem State.eq_of_getV_setV_ne {s : State} {x r : Reg} {b : Byte} (h : (s.setV x b).getV r ≠ s.getV r) :
    r = x := by
  by_contra hr
  exact h (by rw [State.getV_setV, if_neg hr])

/-- A register that a flagged write of Vx has changed is Vx or VF. -/
theorem State.eq_or_eq_of_getV_setFlagThenV_ne {s : State} {c : Bool} {x r : Reg} {b : Byte}
    (h : (s.setFlagThenV c x b).getV r ≠ s.getV r) : r = x ∨ r = 15 := by
  by_contra hr
  obtain ⟨hx, hf⟩ := not_or.1 hr
  exact h (by rw [State.getV_setFlagThenV, if_neg hx, if_neg (show ¬r = vf from hf)])

/-- Settles O27: the effects that write registers are the plain write, the flagged write, the block load and
DRW's flag. -/
theorem registersWrittenOnlyAsListed : Obligations.RegistersWrittenOnlyAsListed := by
  intro i s t r h hne
  cases exec_effect h with
  | plain b hx =>
    have hr := State.eq_of_getV_setV_ne hne
    cases i <;> cases hx <;> exact hr
  | flagged c b hx =>
    have hr := State.eq_or_eq_of_getV_setFlagThenV_ne hne
    cases i <;> cases hx <;> exact hr
  | random x kk b => exact State.eq_of_getV_setV_ne (s := s.draw8.2) hne
  | fill x bs hlen =>
    by_contra hr
    refine hne ((fillRegs_get bs 0 s.v r).trans (if_neg ?_))
    simp only [hlen] at hr ⊢; omega
  | draw x y n d => exact State.eq_of_getV_setV_ne (x := vf) (b := flagByte d.hit) hne
  | _ => exact absurd rfl hne

end Sys2Proof.Machine
end

section
/-! What a program cannot see (10_state sections 4 and 13). Each claim is a two-run one: the second state is the
first with the unseen fields replaced, and every handler carries the replacement through. -/
namespace Sys2Proof.Machine

/-! `ST`, `draw_pending` and the SoundStop count. -/

/-- The state with other values in the fields no instruction reads (R33). -/
def State.withSignals (s : State) (st : Byte) (pending : Bool) (stops : Nat) : State :=
  { s with st := st, drawPending := pending, soundStops := stops }

theorem sameToProgram_iff {s t : State} : s.SameToProgram t ↔ ∃ a b c, t = s.withSignals a b c := by
  constructor
  case mp => intro h; exact ⟨t.st, t.drawPending, t.soundStops, by rw [← h]; rfl⟩
  case mpr => rintro ⟨a, b, c, rfl⟩; rfl

theorem exec_withSignals {i : Instr} {s t : State} (h : exec i s = .next t) (a : Byte) (b : Bool) (c : Nat) :
    ∃ a' b' c', exec i (s.withSignals a b c) = .next (t.withSignals a' b' c') := by
  cases i
  case call =>
    rw [exec_call] at h ⊢
    split at h <;> cases h
    exacts [⟨_, _, _, dif_pos ‹_›⟩, ⟨_, _, _, dif_neg ‹_›⟩]
  case skpVx | sknpVx =>
    simp only [exec_skpVx, exec_sknpVx] at h ⊢
    split at h <;> cases h
    exacts [⟨_, _, _, dif_pos ‹_›⟩, ⟨_, _, _, dif_neg ‹_›⟩]
  case ret =>
    rw [exec_ret] at h ⊢
    split at h <;> cases h
    exacts [⟨_, _, _, if_pos ‹_›⟩, ⟨_, _, _, if_neg ‹_›⟩]
  case ldBVx | ldMemVx | ldVxMem | drwVxVyN =>
    simp only [exec_ldBVx, exec_ldMemVx, exec_ldVxMem, exec_drwVxVyN] at h ⊢
    split at h <;> cases h
    exacts [⟨_, _, _, if_pos ‹_›⟩, ⟨_, _, _, if_neg ‹_›⟩]
  case ldVxK =>
    cases hk : s.lowestHeld with
    | none =>
      cases (exec_ldVxK_of_none hk).symm.trans h
      exact ⟨_, _, _, exec_ldVxK_of_none hk⟩
    | some k =>
      cases (exec_ldVxK_of_some hk).symm.trans h
      exact ⟨_, _, _, exec_ldVxK_of_some hk⟩
  all_goals cases h; exact ⟨_, _, _, rfl⟩

theorem timerPolicy_withSignals (s : State) (a : Byte) (b : Bool) (c : Nat) :
    ∃ a' b' c', timerPolicy (s.withSignals a b c) = (timerPolicy s).withSignals a' b' c' := by
  by_cases h : s.tick.val < 9
  · rw [timerPolicy_of_lt h]
    exact ⟨a, b, c, timerPolicy_of_lt (s := s.withSignals a b c) h⟩
  · have h9 : s.tick.val = 9 := by omega
    rw [timerPolicy_of_eq h9, timerPolicy_of_eq (s := s.withSignals a b c) h9]
    simp only [serviceST_eq, serviceDT_eq]
    exact ⟨_, _, _, rfl⟩

theorem finishCycle_withSignals (s : State) (a : Byte) (b : Bool) (c : Nat) :
    ∃ a' b' c', finishCycle (s.withSignals a b c) = (finishCycle s).withSignals a' b' c' := by
  cases h : s.halted with
  | true => rw [finishCycle_of_halted h]; exact ⟨a, b, c, finishCycle_of_halted h⟩
  | false =>
    rw [finishCycle_of_running h, finishCycle_of_running (s := s.withSignals a b c) h]
    exact timerPolicy_withSignals s a b c

theorem step_withSignals {s t : State} (h : step s = .next t) (a : Byte) (b : Bool) (c : Nat) :
    ∃ a' b' c', step (s.withSignals a b c) = .next (t.withSignals a' b' c') := by
  rcases step_cases h with ⟨hs, rfl⟩ | ⟨hs, hf, rfl⟩ | ⟨w, e, hs, hf, hd, rfl⟩ | ⟨w, i, u, hs, hf, hd, hx, rfl⟩
  · exact ⟨_, _, _, step_of_halted hs⟩
  · exact ⟨_, _, _, step_of_no_fetch hs hf⟩
  · exact ⟨_, _, _, step_of_no_decode hs hf hd⟩
  · obtain ⟨a', b', c', hx'⟩ := exec_withSignals hx a b c
    obtain ⟨a'', b'', c'', hu⟩ := finishCycle_withSignals u a' b' c'
    exact ⟨_, _, _, (step_of_exec (s := s.withSignals a b c) hs hf hd hx').trans (congrArg _ hu)⟩

/-- Settles O28: the second run is the first with other signals. -/
theorem programCannotSeeSoundAndDrawState : Obligations.ProgramCannotSeeSoundAndDrawState := by
  intro s s' t t' hsame h h'
  obtain ⟨a, b, c, rfl⟩ := sameToProgram_iff.1 hsame
  obtain ⟨a', b', c', hstep⟩ := step_withSignals h a b c
  exact sameToProgram_iff.2 ⟨a', b', c', Host.Outcome.next.inj (h'.symm.trans hstep)⟩

/-! Stack slots at or above `sp`. -/

/-- The state with another return stack. -/
def State.withStack (s : State) (k : Vector Word 16) : State := { s with stack := k }

/-- Two return stacks with the same addresses in the slots below `n`. -/
def AgreeBelow (n : Nat) (k k' : Vector Word 16) : Prop := ∀ j : Fin 16, j.val < n → k'.get j = k.get j

theorem sameButStaleSlots_iff {s t : State} :
    s.SameButStaleSlots t ↔ ∃ k, AgreeBelow s.sp.val s.stack k ∧ t = s.withStack k := by
  constructor
  case mp => rintro ⟨h, hk⟩; exact ⟨t.stack, hk, by rw [← h]; rfl⟩
  case mpr => rintro ⟨k, hk, rfl⟩; exact ⟨rfl, hk⟩

/-- A push makes the slot it uses agree as well (R102). -/
theorem AgreeBelow.push {n : Nat} {k k' : Vector Word 16} (h : AgreeBelow n k k') (hn : n < 16) (ret : Word) :
    AgreeBelow (n + 1) (k.set n ret hn) (k'.set n ret hn) := by
  intro j hj
  simp only [Vector.get_eq_getElem, Vector.getElem_set]
  split
  · rfl
  · exact h j (by omega)

/-- What a handler leaves is the same but for stale slots: CALL rewrites the slot it uses, RET reads below `sp`,
and nothing else touches the stack (R20). -/
theorem exec_withStack {i : Instr} {s t : State} {k : Vector Word 16} (h : exec i s = .next t)
    (hk : AgreeBelow s.sp.val s.stack k) :
    ∃ k', AgreeBelow t.sp.val t.stack k' ∧ exec i (s.withStack k) = .next (t.withStack k') := by
  cases i
  case call =>
    rw [exec_call] at h ⊢
    split at h <;> cases h
    exacts [⟨_, hk.push _ _, dif_pos ‹_›⟩, ⟨k, hk, dif_neg ‹_›⟩]
  case ret =>
    rw [exec_ret] at h ⊢
    split at h <;> cases h
    case isTrue h0 => exact ⟨k, hk, if_pos h0⟩
    case isFalse h0 =>
      have hsp := s.sp.isLt
      have htop := hk ⟨s.sp.val - 1, by omega⟩ (by simp only; omega)
      refine ⟨k, fun j hj => hk j (hj.trans (by simp only [State.leave]; omega)), (if_neg h0).trans ?_⟩
      simp only [State.leave, State.withStack, htop]
  case skpVx | sknpVx =>
    simp only [exec_skpVx, exec_sknpVx] at h ⊢
    split at h <;> cases h
    exacts [⟨k, hk, dif_pos ‹_›⟩, ⟨k, hk, dif_neg ‹_›⟩]
  case ldBVx | ldMemVx | ldVxMem | drwVxVyN =>
    simp only [exec_ldBVx, exec_ldMemVx, exec_ldVxMem, exec_drwVxVyN] at h ⊢
    split at h <;> cases h
    exacts [⟨k, hk, if_pos ‹_›⟩, ⟨k, hk, if_neg ‹_›⟩]
  case ldVxK =>
    cases hheld : s.lowestHeld with
    | none =>
      cases (exec_ldVxK_of_none hheld).symm.trans h
      exact ⟨k, hk, exec_ldVxK_of_none hheld⟩
    | some key =>
      cases (exec_ldVxK_of_some hheld).symm.trans h
      exact ⟨k, hk, exec_ldVxK_of_some hheld⟩
  all_goals cases h; exact ⟨k, hk, rfl⟩

theorem timerPolicy_withStack (s : State) (k : Vector Word 16) :
    timerPolicy (s.withStack k) = (timerPolicy s).withStack k := by
  by_cases h : s.tick.val < 9
  · rw [timerPolicy_of_lt h]
    exact timerPolicy_of_lt (s := s.withStack k) h
  · have h9 : s.tick.val = 9 := by omega
    rw [timerPolicy_of_eq h9, timerPolicy_of_eq (s := s.withStack k) h9]
    simp only [serviceST_eq, serviceDT_eq]
    rfl

theorem finishCycle_withStack (s : State) (k : Vector Word 16) :
    finishCycle (s.withStack k) = (finishCycle s).withStack k := by
  cases h : s.halted with
  | true => rw [finishCycle_of_halted h]; exact finishCycle_of_halted h
  | false =>
    rw [finishCycle_of_running h, finishCycle_of_running (s := s.withStack k) h, timerPolicy_withStack]

theorem AgreeBelow.finishCycle {s : State} {k : Vector Word 16} (hk : AgreeBelow s.sp.val s.stack k) :
    AgreeBelow (finishCycle s).sp.val (finishCycle s).stack k := by
  have hsp := congrArg State.sp (finishCycle_frame s)
  have hstack := congrArg State.stack (finishCycle_frame s)
  simp only at hsp hstack
  rwa [hsp, hstack]

theorem step_withStack {s t : State} {k : Vector Word 16} (h : step s = .next t)
    (hk : AgreeBelow s.sp.val s.stack k) :
    ∃ k', AgreeBelow t.sp.val t.stack k' ∧ step (s.withStack k) = .next (t.withStack k') := by
  rcases step_cases h with ⟨hs, rfl⟩ | ⟨hs, hf, rfl⟩ | ⟨w, e, hs, hf, hd, rfl⟩ | ⟨w, i, u, hs, hf, hd, hx, rfl⟩
  · exact ⟨k, hk, step_of_halted hs⟩
  · exact ⟨k, hk, step_of_no_fetch hs hf⟩
  · exact ⟨k, hk, step_of_no_decode hs hf hd⟩
  · obtain ⟨k', hk', hx'⟩ := exec_withStack hx hk
    refine ⟨k', hk'.finishCycle, (step_of_exec (s := s.withStack k) hs hf hd hx').trans ?_⟩
    rw [finishCycle_withStack]

/-- Settles O29: the second run is the first with another stack, which agrees below the new `sp` too. -/
theorem staleStackSlotsUnobservable : Obligations.StaleStackSlotsUnobservable := by
  intro s s' t t' hsame h h'
  obtain ⟨k, hk, rfl⟩ := sameButStaleSlots_iff.1 hsame
  obtain ⟨k', hk', hstep⟩ := step_withStack h hk
  exact sameButStaleSlots_iff.2 ⟨k', hk', Host.Outcome.next.inj (h'.symm.trans hstep)⟩

end Sys2Proof.Machine
end

section
/-! CALL, RET and the indexed jump (40_control_transfer R100, R102, R107; 60_exceptions R205, R206). -/
namespace Sys2Proof.Machine

theorem exec_call_of_room {s : State} (nnn : Addr) (h : s.sp.val < 16) :
    exec (.call nnn) s = .next (s.enter nnn h) :=
  (exec_call nnn s).trans (dif_pos h)

/-- RET where the top slot is `j`. -/
theorem exec_ret_of_top {s : State} {j : Fin 16} (h : s.sp.val = j.val + 1) : exec .ret s = .next (s.leave j) := by
  have hj : (⟨s.sp.val - 1, by omega⟩ : Fin 16) = j := Fin.ext (by simp only; omega)
  rw [exec_ret, if_neg (by omega), hj]

/-- Only the slot CALL uses is new. -/
theorem State.enter_stack_get (s : State) (nnn : Addr) (h : s.sp.val < 16) (j : Fin 16) :
    (s.enter nnn h).stack.get j = if j.val = s.sp.val then s.returnAddress else s.stack.get j := by
  simp only [State.enter, Vector.get_eq_getElem, Vector.getElem_set, eq_comm]

/-- Settles O31: the target is a sum that does not wrap, written to `pc` alone (R107). -/
theorem indexedJumpLandsTwoFurther : Obligations.IndexedJumpLandsTwoFurther := by
  intro nnn s
  exact ⟨_, exec_jpV0NNN nnn s, indexedTarget_toNat nnn _, State.setPc_frame s _⟩

/-- Settles O32: the pushed value is `pc + 2` in 16 bits (R102). -/
theorem callPushesReturnAddress : Obligations.CallPushesReturnAddress := by
  intro nnn s h
  refine ⟨_, exec_call_of_room nnn h, addrOperand_toNat nnn, rfl, fun j hj => ?pushed, fun j hj => ?others, rfl⟩
  case pushed =>
    rw [State.enter_stack_get, if_pos hj, State.returnAddress]
    exact BitVec.toNat_add s.pc 2
  case others => rw [State.enter_stack_get, if_neg hj]

/-- Settles O33: the popped slot goes to `pc` as it is (R100). -/
theorem returnPopsAddress : Obligations.ReturnPopsAddress := by
  intro s j h
  exact ⟨_, exec_ret_of_top h, rfl, rfl, rfl⟩

/-- Settles O34: the two checks fail, and each fault writes latch and record only (R205, R206). -/
theorem stackFaultsAreTaken : Obligations.StackFaultsAreTaken := by
  refine ⟨fun nnn s h => ⟨encode (.call nnn), toNat_packA _ _, ?full⟩, fun s h => ?empty⟩
  case full => exact (exec_call nnn s).trans (dif_neg (by omega))
  case empty => exact (exec_ret s).trans (if_pos h)

/-- Settles O35: RET's top slot is the one CALL used, so it pops what CALL pushed. -/
theorem callThenReturnComesBack : Obligations.CallThenReturnComesBack := by
  intro nnn s u h
  refine ⟨_, exec_call_of_room nnn h, _, exec_ret_of_top (j := ⟨s.sp.val, h⟩) rfl, ?_, rfl⟩
  exact (State.enter_stack_get s nnn h _).trans (if_pos rfl)

/-- Settles O60: where `sp` is not 0 there is a top slot, and RET takes it. -/
theorem returnCompletes : Obligations.ReturnCompletes := by
  intro s h
  have hlt := s.sp.isLt
  obtain ⟨j, hj⟩ : ∃ j : Fin 16, s.sp.val = j.val + 1 := ⟨⟨s.sp.val - 1, by omega⟩, by simp only; omega⟩
  refine ⟨_, exec_ret_of_top hj, rfl, rfl, hj.symm, fun j' hj' => ?_, rfl⟩
  rw [Fin.ext hj']; rfl

end Sys2Proof.Machine
end

section
/-! The flag instructions and RND (41_load_and_alu R126 to R133): the five flag instructions are one state change,
VF and then Vx, with a result and a flag that are arithmetic on the two operands. -/
namespace Sys2Proof.Machine

/-- A flagged write where Vx is not VF: both are written, and nothing else but `pc` (R13). -/
theorem State.setFlagThenV_advance_of_ne (s : State) (c : Bool) {x : Reg} (b : Byte) (hx : x ≠ 15) :
    (s.setFlagThenV c x b).advance.getV x = b ∧ (s.setFlagThenV c x b).advance.getV 15 = flagByte c ∧
      (∀ z, z ≠ x → z ≠ 15 → (s.setFlagThenV c x b).advance.getV z = s.getV z) ∧
      (s.setFlagThenV c x b).advance.pc = s.pc + 2 ∧
      { (s.setFlagThenV c x b).advance with v := s.v, pc := s.pc } = s := by
  refine ⟨?result, ?flag, fun z hz hf => ?others, rfl, rfl⟩
  case result => rw [State.getV_advance, State.getV_setFlagThenV, if_pos rfl]
  case flag => rw [State.getV_advance, State.getV_setFlagThenV, if_neg hx.symm]; exact if_pos rfl
  case others =>
    rw [State.getV_advance, State.getV_setFlagThenV, if_neg hz, if_neg (show ¬z = vf from hf)]

/-- A flagged write of VF: the result stands and the flag is lost (R13, R132). -/
theorem State.setFlagThenV_advance_vf (s : State) (c : Bool) (b : Byte) :
    (s.setFlagThenV c 15 b).advance.getV 15 = b ∧
      (∀ z, z ≠ 15 → (s.setFlagThenV c 15 b).advance.getV z = s.getV z) ∧
      (s.setFlagThenV c 15 b).advance.pc = s.pc + 2 ∧
      { (s.setFlagThenV c 15 b).advance with v := s.v, pc := s.pc } = s := by
  refine ⟨?result, fun z hz => ?others, rfl, rfl⟩
  case result => rw [State.getV_advance, State.getV_setFlagThenV, if_pos rfl]
  case others =>
    rw [State.getV_advance, State.getV_setFlagThenV, if_neg hz, if_neg (show ¬z = vf from hz)]

/-! Results and flags as numbers. -/

theorem flagByte_decide_toNat (p : Prop) [Decidable p] : (flagByte (decide p)).toNat = if p then 1 else 0 := by
  by_cases h : p <;> simp [flagByte, h]

/-- The difference modulo 256, on integers (R127, R129). -/
theorem toNat_sub_int (a b : Byte) : ((a - b).toNat : Int) = ((a.toNat : Int) - b.toNat) % 256 := by
  have := a.isLt
  have := b.isLt
  rw [BitVec.toNat_sub]; omega

theorem toNat_shiftRight_one (a : Byte) : (a >>> 1).toNat = a.toNat / 2 := by
  rw [BitVec.toNat_ushiftRight, Nat.shiftRight_eq_div_pow]

theorem toNat_shiftLeft_one (a : Byte) : (a <<< 1).toNat = 2 * a.toNat % 256 := by
  rw [BitVec.toNat_shiftLeft, Nat.shiftLeft_eq, Nat.mul_comm]

theorem toNat_shiftedOutRight (a : Byte) : (flagByte (shiftedOutRight a)).toNat = a.toNat % 2 := by
  revert a; decide

theorem toNat_shiftedOutLeft (a : Byte) : (flagByte (shiftedOutLeft a)).toNat = a.toNat / 128 := by
  revert a; decide

/-! The two-operand forms where Vx is not VF; Vy may be. -/

theorem exec_addVxVy_of_ne (x y : Reg) (s : State) (hx : x ≠ 15) : ∃ t, exec (.addVxVy x y) s = .next t ∧
    (t.getV x).toNat = ((s.getV x).toNat + (s.getV y).toNat) % 256 ∧
    (t.getV 15).toNat = (if (s.getV x).toNat + (s.getV y).toNat > 255 then 1 else 0) ∧
    (∀ z, z ≠ x → z ≠ 15 → t.getV z = s.getV z) ∧ t.pc = s.pc + 2 ∧ { t with v := s.v, pc := s.pc } = s := by
  obtain ⟨result, flag, rest⟩ :=
    s.setFlagThenV_advance_of_ne (carryFlag (s.getV x) (s.getV y)) (s.getV x + s.getV y) hx
  refine ⟨_, exec_addVxVy x y s, ?_, ?_, rest⟩
  · rw [result]; exact BitVec.toNat_add _ _
  · rw [flag]; exact flagByte_decide_toNat _

theorem exec_subVxVy_of_ne (x y : Reg) (s : State) (hx : x ≠ 15) : ∃ t, exec (.subVxVy x y) s = .next t ∧
    ((t.getV x).toNat : Int) = (((s.getV x).toNat : Int) - (s.getV y).toNat) % 256 ∧
    (t.getV 15).toNat = (if (s.getV x).toNat > (s.getV y).toNat then 1 else 0) ∧
    (∀ z, z ≠ x → z ≠ 15 → t.getV z = s.getV z) ∧ t.pc = s.pc + 2 ∧ { t with v := s.v, pc := s.pc } = s := by
  obtain ⟨result, flag, rest⟩ :=
    s.setFlagThenV_advance_of_ne (notBorrowFlag (s.getV x) (s.getV y)) (s.getV x - s.getV y) hx
  refine ⟨_, exec_subVxVy x y s, ?_, ?_, rest⟩
  · rw [result]; exact toNat_sub_int _ _
  · rw [flag]; exact flagByte_decide_toNat _

theorem exec_subnVxVy_of_ne (x y : Reg) (s : State) (hx : x ≠ 15) : ∃ t, exec (.subnVxVy x y) s = .next t ∧
    ((t.getV x).toNat : Int) = (((s.getV y).toNat : Int) - (s.getV x).toNat) % 256 ∧
    (t.getV 15).toNat = (if (s.getV y).toNat > (s.getV x).toNat then 1 else 0) ∧
    (∀ z, z ≠ x → z ≠ 15 → t.getV z = s.getV z) ∧ t.pc = s.pc + 2 ∧ { t with v := s.v, pc := s.pc } = s := by
  obtain ⟨result, flag, rest⟩ :=
    s.setFlagThenV_advance_of_ne (notBorrowFlag (s.getV y) (s.getV x)) (s.getV y - s.getV x) hx
  refine ⟨_, exec_subnVxVy x y s, ?_, ?_, rest⟩
  · rw [result]; exact toNat_sub_int _ _
  · rw [flag]; exact flagByte_decide_toNat _

/-- Settles O40 (R126). -/
theorem addSetsCarry : Obligations.AddSetsCarry :=
  fun x y s hx _ => exec_addVxVy_of_ne x y s hx

/-- Settles O41: SUBN is SUB with the operands exchanged (R127, R129). -/
theorem subtractionsSetNotBorrow : Obligations.SubtractionsSetNotBorrow :=
  fun x y s hx _ => ⟨exec_subVxVy_of_ne x y s hx, exec_subnVxVy_of_ne x y s hx⟩

/-- Settles O42: the shifts halve and double, and the flag is the remainder or the carry of that (R128, R130). -/
theorem shiftsCaptureShiftedOutBit : Obligations.ShiftsCaptureShiftedOutBit := by
  intro x s hx
  constructor
  case left =>
    obtain ⟨result, flag, rest⟩ :=
      s.setFlagThenV_advance_of_ne (shiftedOutRight (s.getV x)) (s.getV x >>> 1) hx
    refine ⟨_, exec_shrVx x s, ?_, ?_, rest⟩
    · rw [result, toNat_shiftRight_one]
    · rw [flag, toNat_shiftedOutRight]
  case right =>
    obtain ⟨result, flag, rest⟩ :=
      s.setFlagThenV_advance_of_ne (shiftedOutLeft (s.getV x)) (s.getV x <<< 1) hx
    refine ⟨_, exec_shlVx x s, ?_, ?_, rest⟩
    · rw [result, toNat_shiftLeft_one]
    · rw [flag, toNat_shiftedOutLeft]

/-- Settles O43: with X = 0xF the second of the two writes stands; with Y = 0xF the operand was sampled before the
first (R13, R132). -/
theorem flagInstructionsOnVF : Obligations.FlagInstructionsOnVF := by
  intro y s
  refine ⟨?add, ?sub, ?subn, ?shr, ?shl, fun hy =>
    ⟨exec_addVxVy_of_ne y 15 s hy, exec_subVxVy_of_ne y 15 s hy, exec_subnVxVy_of_ne y 15 s hy⟩⟩
  case add =>
    obtain ⟨result, rest⟩ := s.setFlagThenV_advance_vf (carryFlag (s.getV 15) (s.getV y)) (s.getV 15 + s.getV y)
    exact ⟨_, exec_addVxVy 15 y s, by rw [result]; exact BitVec.toNat_add _ _, rest⟩
  case sub =>
    obtain ⟨result, rest⟩ :=
      s.setFlagThenV_advance_vf (notBorrowFlag (s.getV 15) (s.getV y)) (s.getV 15 - s.getV y)
    exact ⟨_, exec_subVxVy 15 y s, by rw [result]; exact toNat_sub_int _ _, rest⟩
  case subn =>
    obtain ⟨result, rest⟩ :=
      s.setFlagThenV_advance_vf (notBorrowFlag (s.getV y) (s.getV 15)) (s.getV y - s.getV 15)
    exact ⟨_, exec_subnVxVy 15 y s, by rw [result]; exact toNat_sub_int _ _, rest⟩
  case shr =>
    obtain ⟨result, rest⟩ := s.setFlagThenV_advance_vf (shiftedOutRight (s.getV 15)) (s.getV 15 >>> 1)
    exact ⟨_, exec_shrVx 15 s, by rw [result, toNat_shiftRight_one], rest⟩
  case shl =>
    obtain ⟨result, rest⟩ := s.setFlagThenV_advance_vf (shiftedOutLeft (s.getV 15)) (s.getV 15 <<< 1)
    exact ⟨_, exec_shlVx 15 s, by rw [result, toNat_shiftLeft_one], rest⟩

/-- Settles O44: one write of Vx, whose bits are among those of KK whatever byte was drawn (R133). -/
theorem randomByteIsMasked : Obligations.RandomByteIsMasked := by
  intro x kk s
  have value := s.draw8.2.getV_setV_advance_same x (Config.freeByte s.draws &&& kk)
  obtain ⟨others, pc, -⟩ := s.draw8.2.setV_advance_frame x (Config.freeByte s.draws &&& kk)
  refine ⟨_, exec_rndVxKK x kk s, value, fun k hk => ?masked, others, rfl, pc, rfl⟩
  case masked =>
    refine (congrArg (BitVec.getLsbD · k) value).trans ?_
    simp only [BitVec.getLsbD_and, hk, Bool.and_false]

end Sys2Proof.Machine
end

section
/-! The index register and the memory instructions (42_index_and_memory R140 to R146, 20_memory R43, R44): the two
stores and the block load within memory, their faults past it, and what follows a store. -/
namespace Sys2Proof.Machine

/-! The index register. -/

/-- A write of `I` with its advance leaves all but `i` and `pc`. -/
theorem State.setI_advance_frame (s : State) (w : Word) : { (s.setI w).advance with i := s.i, pc := s.pc } = s := rfl

/-- Settles O45: NNN is widened, and five times a byte fits 16 bits (R140, R142). -/
theorem indexLoads : Obligations.IndexLoads := by
  intro x nnn s
  exact ⟨⟨_, exec_ldINNN nnn s, addrOperand_toNat nnn, rfl, State.setI_advance_frame s _⟩,
    ⟨_, exec_ldFVx x s, (glyphAddress_toNat _).trans (Nat.mul_comm _ _), rfl, State.setI_advance_frame s _⟩⟩

/-- Settles O46 (R141). -/
theorem indexAddWraps : Obligations.IndexAddWraps := by
  intro x s
  exact ⟨_, exec_addIVx x s, indexPlus_toNat _ _, rfl, State.setI_advance_frame s _⟩

/-! The handlers within memory. -/

theorem exec_ldBVx_of_fits {s : State} (x : Reg) (h : s.i.toNat + 2 ≤ 4095) :
    exec (.ldBVx x) s = .next (s.store (bcdDigits (s.getV x))) :=
  (exec_ldBVx x s).trans (if_pos (by omega))

theorem exec_ldMemVx_of_fits {s : State} {x : Reg} (h : s.i.toNat + x.val ≤ 4095) :
    exec (.ldMemVx x) s = .next (s.store (s.regBlock x)) :=
  (exec_ldMemVx x s).trans (if_pos (by omega))

theorem exec_ldVxMem_of_fits {s : State} {x : Reg} (h : s.i.toNat + x.val ≤ 4095) :
    exec (.ldVxMem x) s =
      .next (s.setRegs (fillRegs 0 (Memory.readN s.mem s.i.toNat (x.val + 1)) s.v)).advance :=
  (exec_ldVxMem x s).trans (if_pos (by omega))

theorem State.store_frame (s : State) (bs : List Byte) :
    (s.store bs).pc = s.pc + 2 ∧ { s.store bs with mem := s.mem, pc := s.pc } = s := ⟨rfl, rfl⟩

/-- Byte `k` of the block LD [I],Vx stores is register `k` (R144). -/
theorem State.read_store_regBlock {s : State} {x k : Reg} (h : s.i.toNat + x.val ≤ 4095) (hk : k.val ≤ x.val) :
    Memory.read (s.store (s.regBlock x)).mem (s.i.toNat + k.val) = s.getV k := by
  have hlen := s.length_regBlock x
  rw [State.read_store_inside (by omega) (by omega), State.getD_regBlock s x k hk]

/-- The three bytes LD B stores (R143). -/
theorem State.read_store_bcdDigits {s : State} (a : Byte) (h : s.i.toNat + 2 ≤ 4095) :
    (Memory.read (s.store (bcdDigits a)).mem s.i.toNat).toNat = a.toNat / 100 ∧
      (Memory.read (s.store (bcdDigits a)).mem (s.i.toNat + 1)).toNat = a.toNat / 10 % 10 ∧
      (Memory.read (s.store (bcdDigits a)).mem (s.i.toNat + 2)).toNat = a.toNat % 10 := by
  have ha := a.isLt
  have hfit : s.i.toNat + (bcdDigits a).length ≤ 4096 := by rw [length_bcdDigits]; omega
  have digit {k : Nat} (hk : k < 3) :
      Memory.read (s.store (bcdDigits a)).mem (s.i.toNat + k) = (bcdDigits a).getD k 0 :=
    State.read_store_inside hfit hk
  refine ⟨(congrArg BitVec.toNat (digit (k := 0) (by omega))).trans ?_, ?_, ?_⟩
  · exact Nat.mod_eq_of_lt (by omega)
  · rw [digit (by omega)]; exact Nat.mod_eq_of_lt (by omega)
  · rw [digit (by omega)]; exact Nat.mod_eq_of_lt (by omega)

/-- Settles O47: the digits are the quotients and remainders by 100 and 10, so they are bounded and give the value
back (R143). -/
theorem bcdStoresDigits : Obligations.BcdStoresDigits := by
  intro x s h
  have hv := (s.getV x).isLt
  obtain ⟨hundreds, tens, ones⟩ := State.read_store_bcdDigits (s.getV x) h
  have hfit : s.i.toNat + (bcdDigits (s.getV x)).length ≤ 4096 := by rw [length_bcdDigits]; omega
  refine ⟨_, exec_ldBVx_of_fits x h, by omega, by omega, by omega, by omega, fun a ha => ?others, s.store_frame _⟩
  case others => exact State.read_store_outside hfit (by rw [length_bcdDigits]; omega)

/-- Settles O48 (R144). -/
theorem blockStoreWritesRegisters : Obligations.BlockStoreWritesRegisters := by
  intro x s h
  have hlen := s.length_regBlock x
  exact ⟨_, exec_ldMemVx_of_fits h, fun k hk => State.read_store_regBlock h hk,
    fun a ha => State.read_store_outside (by omega) (by omega), s.store_frame _⟩

/-- Register `k` after a block load (R145). -/
theorem fillRegs_readN_get (m : Memory) (a : Nat) (v : Vector Byte 16) (x k : Reg) :
    (fillRegs 0 (Memory.readN m a (x.val + 1)) v).get k =
      if k.val ≤ x.val then Memory.read m (a + k.val) else v.get k := by
  rw [fillRegs_get, Memory.length_readN]
  by_cases hk : k.val ≤ x.val
  · rw [if_pos (by omega), if_pos hk, Nat.sub_zero, Memory.getD_readN m a _ _ (by omega)]
  · rw [if_neg (by omega), if_neg hk]

/-- Settles O49 (R145). -/
theorem blockLoadFillsRegisters : Obligations.BlockLoadFillsRegisters := by
  intro x s h
  refine ⟨_, exec_ldVxMem_of_fits h, fun k hk => ?filled, fun k hk => ?kept, rfl, rfl⟩
  case filled => exact (fillRegs_readN_get s.mem s.i.toNat s.v x k).trans (if_pos hk)
  case kept => exact (fillRegs_readN_get s.mem s.i.toNat s.v x k).trans (if_neg (by omega))

/-- Settles O50: the range check fails before any access, and the record holds the instruction's encoding (R44,
R207). -/
theorem memoryRangeFaultsAreTaken : Obligations.MemoryRangeFaultsAreTaken := by
  intro x y n s
  refine ⟨fun h => ⟨encode (.ldBVx x), ?bcdWord, ?bcd⟩, fun h => ⟨encode (.ldMemVx x), ?storeWord, ?store⟩,
    fun h => ⟨encode (.ldVxMem x), ?loadWord, ?load⟩, fun hn h => ⟨encode (.drwVxVyN x y n), ?drawWord, ?draw⟩⟩
  case bcd => exact (exec_ldBVx x s).trans (if_neg (by omega))
  case store => exact (exec_ldMemVx x s).trans (if_neg (by omega))
  case load => exact (exec_ldVxMem x s).trans (if_neg (by omega))
  case draw => exact (exec_drwVxVyN x y n s).trans (if_neg (by omega))
  case drawWord => exact toNat_packXYN _ _ _ _
  all_goals exact (toNat_packXK _ _ _).trans (Nat.add_right_comm _ _ _)

/-- Settles O51: the load reads at the same `I` what the store put there (20_memory section 5). -/
theorem blockStoreThenLoadRestores : Obligations.BlockStoreThenLoadRestores := by
  intro x s v h
  refine ⟨_, exec_ldMemVx_of_fits h, _, exec_ldVxMem_of_fits h, fun k hk => ?stored, fun k hk => ?kept⟩
  case stored =>
    refine (fillRegs_readN_get _ _ v x k).trans ((if_pos hk).trans ?_)
    exact State.read_store_regBlock h hk
  case kept => exact (fillRegs_readN_get _ _ v x k).trans (if_neg (by omega))

/-! A store and the next fetch. -/

/-- The two bytes of a fetched word (R42). -/
theorem State.fetchWord_bytes {s : State} (h : s.pc.toNat ≤ 4094) : ∃ w, s.fetchWord = some w ∧
    w.toNat / 256 = (Memory.read s.mem s.pc.toNat).toNat ∧
    w.toNat % 256 = (Memory.read s.mem (s.pc.toNat + 1)).toNat := by
  obtain ⟨w, hf, hw⟩ := fetchIsBigEndian s h
  have := (Memory.read s.mem (s.pc.toNat + 1)).isLt
  exact ⟨w, hf, by omega, by omega⟩

/-- Settles O52: the fetch reads the memory the store leaves, so each byte of the word is the stored one where its
address was written (20_memory section 9). -/
theorem storedBytesAreFetched : Obligations.StoredBytesAreFetched := by
  intro x s p hp
  refine ⟨fun h => ?block, fun h => ?bcd⟩
  case block =>
    obtain ⟨w, hf, hi, lo⟩ := State.fetchWord_bytes (s := { s.store (s.regBlock x) with pc := p }) hp
    refine ⟨_, exec_ldMemVx_of_fits h, w, hf, fun k hk => ?_⟩
    have hread := congrArg BitVec.toNat (State.read_store_regBlock h hk)
    exact ⟨fun e => hi.trans (e ▸ hread), fun e => lo.trans (e ▸ hread)⟩
  case bcd =>
    obtain ⟨w, hf, hi, lo⟩ := State.fetchWord_bytes (s := { s.store (bcdDigits (s.getV x)) with pc := p }) hp
    obtain ⟨hundreds, tens, ones⟩ := State.read_store_bcdDigits (s.getV x) h
    exact ⟨_, exec_ldBVx_of_fits x h, w, hf, fun e => hi.trans (e ▸ hundreds), fun e => hi.trans (e ▸ tens),
      fun e => hi.trans (e ▸ ones), fun e => lo.trans (e ▸ hundreds), fun e => lo.trans (e ▸ tens),
      fun e => lo.trans (e ▸ ones)⟩

end Sys2Proof.Machine
end

section
/-! DRW (43_display R161, R162): the drawn cells are those the sprite lights, and drawing is its own inverse. -/
namespace Sys2Proof.Machine

/-- The lit cells of the statement are those the drawing loop flips. -/
theorem blockLights_iff_spriteLights (s : State) (x y : Reg) (n : Nibble) (q : FbCell) :
    BlockLights (s.getV x) (s.getV y) 0 (Memory.readN s.mem s.i.toNat n.toNat) q ↔ s.SpriteLights x y n q := by
  rw [blockLights_iff]
  refine exists_congr fun r => exists_congr fun c => ?_
  rw [Memory.length_readN, Nat.zero_add, Fin.ext_iff, fbIndex_val, spriteBit, BitVec.getMsbD_eq_getLsbD]
  refine and_congr_right fun hr => and_congr_right fun hc => ?_
  rw [Memory.getD_readN _ _ _ _ hr, decide_eq_true hc, Bool.true_and]

/-- What DRW computes: each lit cell flipped, and the flag set iff one of them held 1 (R161). -/
theorem State.blit_draws (s : State) (x y : Reg) (n : Nibble) :
    Draws (s.SpriteLights x y n) ⟨s.fb, false⟩ (s.blit x y n) := by
  have hlen : 0 + (Memory.readN s.mem s.i.toNat n.toNat).length ≤ 15 := by
    have := n.isLt
    rw [Memory.length_readN]; omega
  exact (drawRows_spec _ _ _ 0 hlen _).congr (blockLights_iff_spriteLights s x y n)

theorem State.blit_hit_iff (s : State) (x y : Reg) (n : Nibble) :
    (s.blit x y n).hit = true ↔ ∃ q, s.SpriteLights x y n q ∧ s.pixel q = true := by
  rw [(s.blit_draws x y n).hit]
  exact or_iff_right Bool.false_ne_true

theorem exec_drwVxVyN_of_fits {s : State} {n : Nibble} (x y : Reg)
    (h : n.toNat = 0 ∨ s.i.toNat + n.toNat - 1 ≤ 4095) :
    exec (.drwVxVyN x y n) s = .next (s.present (s.blit x y n)) :=
  (exec_drwVxVyN x y n s).trans (if_pos (by omega))

theorem State.getV_present (s : State) (d : Blit) (z : Reg) :
    (s.present d).getV z = if z = 15 then flagByte d.hit else s.getV z :=
  State.getV_setV s vf z (flagByte d.hit)

theorem State.getV_present_vf (s : State) (d : Blit) : (s.present d).getV 15 = flagByte d.hit :=
  (s.getV_present d 15).trans (if_pos rfl)

/-- Settles O54: the computed framebuffer and flag, written with the draw flag and the advance (R161). -/
theorem drawXorsSprite : Obligations.DrawXorsSprite := by
  intro x y n s h
  have hd := s.blit_draws x y n
  refine ⟨_, exec_drwVxVyN_of_fits x y h, hd.lit, hd.unlit, fun hit => ?collision, fun miss => ?none,
    fun z hz => ?others, rfl, rfl, rfl⟩
  case collision => rw [State.getV_present_vf, (s.blit_hit_iff x y n).2 hit]; rfl
  case none =>
    have hno : (s.blit x y n).hit = false := by
      rw [← Bool.not_eq_true, s.blit_hit_iff x y n]
      rintro ⟨q, hq, hp⟩
      exact absurd ((miss q hq).symm.trans hp) Bool.false_ne_true
    rw [State.getV_present_vf, hno]; rfl
  case others => exact (s.getV_present _ z).trans (if_neg hz)

/-- Settles O55: with `I`, memory and registers as before, the second draw flips the same cells, and every cell
the first one lit now holds 1. -/
theorem drawTwiceRestoresScreen : Obligations.DrawTwiceRestoresScreen := by
  intro x y n s h
  have first := s.blit_draws x y n
  have second := State.blit_draws { s.present (s.blit x y n) with v := s.v } x y n
  refine ⟨_, exec_drwVxVyN_of_fits x y h, _, exec_drwVxVyN_of_fits x y h, fb_ext fun q => ?screen, ?flag⟩
  case screen =>
    by_cases hq : s.SpriteLights x y n q
    · exact (second.lit q hq).trans ((congrArg _ (first.lit q hq)).trans (Bool.not_not _))
    · exact (second.unlit q hq).trans (first.unlit q hq)
  case flag =>
    rintro ⟨q, hq, hp⟩
    have hit := second.hit.2 (.inr ⟨q, hq, (first.lit q hq).trans (congrArg Bool.not hp)⟩)
    rw [State.getV_present_vf, hit]; rfl

end Sys2Proof.Machine
end

section
/-! The keypad instructions (44_keypad_and_timers R170, R171, R173, R176). -/
namespace Sys2Proof.Machine

/-- Settles O56: the value names the key, and the skip follows its state (R170, R171). -/
theorem keySkips : Obligations.KeySkips := by
  intro x k s h
  have hlt : (s.getV x).toNat < 16 := h ▸ k.isLt
  have hk : (⟨(s.getV x).toNat, hlt⟩ : Key) = k := Fin.ext h
  refine ⟨⟨_, (exec_skpVx x s).trans (dif_pos hlt), State.skipIf_frame s _, ?skp⟩,
    ⟨_, (exec_sknpVx x s).trans (dif_pos hlt), State.skipIf_frame s _, ?sknp⟩⟩
  all_goals
    rw [hk, State.skipIf_pc]
    cases s.held k <;> rfl

/-- Settles O57: above 15 a value names no key, and it is not masked (R176). -/
theorem keyIndexFaultsAreTaken : Obligations.KeyIndexFaultsAreTaken := by
  intro x s h
  have hno : ¬(s.getV x).toNat < 16 := by omega
  exact ⟨⟨encode (.skpVx x), (toNat_packXK _ _ _).trans (Nat.add_right_comm _ _ _),
      (exec_skpVx x s).trans (dif_neg hno)⟩,
    ⟨encode (.sknpVx x), (toNat_packXK _ _ _).trans (Nat.add_right_comm _ _ _),
      (exec_sknpVx x s).trans (dif_neg hno)⟩⟩

/-- The key LD Vx,K finds is the only one that is held with no lower one held. -/
theorem State.lowestHeld_of_lowest {s : State} {k : Key} (hk : s.held k = true)
    (hlow : ∀ j : Key, j.val < k.val → s.held j = false) : s.lowestHeld = some k := by
  cases h : s.lowestHeld with
  | none => exact absurd ((State.lowestHeld_eq_none.1 h k).symm.trans hk) Bool.false_ne_true
  | some k' =>
    obtain ⟨hk', hlow'⟩ := State.lowestHeld_eq_some h
    rcases lt_trichotomy k k' with hlt | rfl | hgt
    · exact absurd ((hlow' k hlt).symm.trans hk) Bool.false_ne_true
    · rfl
    · exact absurd ((hlow k' hgt).symm.trans hk') Bool.false_ne_true

/-- Settles O58: the scan finds nothing, or the lowest held key, which is written to Vx (R173). -/
theorem waitForKeyTakesLowest : Obligations.WaitForKeyTakesLowest := by
  intro x s
  refine ⟨fun hno => exec_ldVxK_of_none (State.lowestHeld_eq_none.2 hno), fun k hk hlow => ?_⟩
  refine ⟨_, exec_ldVxK_of_some (State.lowestHeld_of_lowest hk hlow), ?_, State.setV_advance_frame s x _⟩
  rw [State.getV_setV_advance_same, keyByte_toNat]

end Sys2Proof.Machine
end

section
/-! Reset, the load of an overlong image and the host's other operations (10_state R32, 60_exceptions R202, R219,
R221). -/
namespace Sys2Proof.Machine

theorem State.getV_reset (x : Reg) : State.reset.getV x = 0 := by
  simp [State.getV, State.reset, Vector.get_eq_getElem]

theorem State.stack_reset (j : Fin 16) : State.reset.stack.get j = 0 := by
  simp [State.reset, Vector.get_eq_getElem]

theorem State.held_reset (k : Key) : State.reset.held k = false := by
  simp [State.held, State.reset, Vector.get_eq_getElem]

/-- Settles O1: a Reset applied again differs from the first state only in the model's own counters, which the
table does not mention. -/
theorem resetPutsEveryValue : Obligations.ResetPutsEveryValue := by
  rintro r (rfl | ⟨s, rfl⟩)
  all_goals
    exact ⟨State.getV_reset, rfl, rfl, State.stack_reset, rfl, rfl, rfl, fbCell_zero, State.held_reset, rfl, rfl, rfl,
      fun _ _ => rfl, fun _ h _ => Memory.read_reset_of_font_le h⟩

/-- Settles O2: by reading the 80 addresses. -/
theorem fontTableAfterReset : Obligations.FontTableAfterReset := by
  unfold Obligations.FontTableAfterReset; decide

theorem loadProgram_of_overlong {image : List Byte} (h : 3584 < image.length) (s : State) :
    loadProgram image s = s.halt ⟨.programImageOverflow, none, none, some image.length⟩ :=
  if_neg fun hok => absurd (of_decide_eq_true hok) (by simp only [Config.programMax]; omega)

/-- Settles O4: the rejected load halts the CORE, and a halted CORE stays as it is (R202, R204). -/
theorem overlongImageIsRejected : Obligations.OverlongImageIsRejected := by
  intro image h
  have hload := loadProgram_of_overlong h State.reset
  exact ⟨hload, step_of_halted (congrArg State.halted hload), rfl⟩

/-- Settles O5: each operation is one write of `key` or `draw_pending` (R219, R221). -/
theorem hostKeyAndDrawOperations : Obligations.HostKeyAndDrawOperations := by
  intro s k
  exact ⟨⟨fun j => State.held_setKey s k j true, rfl⟩, ⟨fun j => State.held_setKey s k j false, rfl⟩, rfl, rfl⟩

end Sys2Proof.Machine
end
